-- ==== Sys2Proof/Word.lean ====
section
/-! DEFINITION. The machine's data widths: bytes, 32-bit words and 64-bit blocks (spec/00_scope.md R7, R9). All quantities
are unsigned. -/

namespace Sys2Proof

/-- One byte of a buffer, 0 to 255 (R9, R40). -/
abbrev Byte := BitVec 8

/-- A 32-bit quantity: a register, a half of a block, a key word, the round accumulator (R7 `HALF_BITS`). -/
abbrev Word := BitVec 32

/-- A 64-bit block (R7 `BLOCK_BITS`). -/
abbrev Block := BitVec 64

end Sys2Proof
end

