-- ==== Sys2Proof/Syntax.lean ====
section
/-! DEFINITION. The command set: one constructor per row of spec/opcode_table.json (spec/00_scope.md R3,
spec/30_encoding.md R92). Operands are implicit (R94), so no constructor carries one. -/

namespace Sys2Proof

/-- The six commands a host can start. -/
inductive Instr where
  /-- `ENC_BLK`: encrypt the block in `DIN` (R122). -/
  | encBlk
  /-- `DEC_BLK`: decrypt the block in `DIN` (R123). -/
  | decBlk
  /-- `ECB_ENC`: encrypt `IBUF[0..LEN)` in ECB mode (R146). -/
  | ecbEnc
  /-- `ECB_DEC`: decrypt `IBUF[0..LEN)` in ECB mode (R147). -/
  | ecbDec
  /-- `CBC_ENC`: encrypt `IBUF[0..LEN)` in CBC mode (R163). -/
  | cbcEnc
  /-- `CBC_DEC`: decrypt `IBUF[0..LEN)` in CBC mode (R164). -/
  | cbcDec
  deriving DecidableEq, Repr

end Sys2Proof
end

