-- ==== Sys2Proof/Decode.lean ====
section
/-! DEFINITION. The command word: its fields, the total decoder and the encoder (spec/30_encoding.md R90 to R97). -/

namespace Sys2Proof

/-- `DIR`, bit 0 (R90): 0 encrypt, 1 decrypt. -/
def dirField (w : Word) : BitVec 1 := w.extractLsb' 0 1

/-- `MODE`, bits 2:1 (R90): 0 single block, 1 ECB, 2 CBC, 3 reserved. -/
def modeField (w : Word) : BitVec 2 := w.extractLsb' 1 2

/-- `RSV`, bits 31:3 (R90): must be zero. -/
def rsvField (w : Word) : BitVec 29 := w.extractLsb' 3 29

/-- `OPCODE = CMD[2:0]` (R90). -/
def opcodeField (w : Word) : BitVec 3 := w.extractLsb' 0 3

/-- Why a word selects no command (R93). -/
inductive IllegalWord where
  /-- A bit of `RSV` is set. -/
  | reservedBits
  /-- `MODE = 3`. -/
  | reservedMode
  deriving DecidableEq, Repr

/-- What the decoder answers: a command, or R97's `Illegal` with its reason. -/
inductive Decoded where
  | command (i : Instr)
  | illegal (why : IllegalWord)
  deriving DecidableEq, Repr

/-- R97: the command that an opcode selects (`MODE = 3` selects none). -/
def decodeOpcode (op : BitVec 3) : Decoded :=
  match op.toNat with
  | 0 => .command .encBlk
  | 1 => .command .decBlk
  | 2 => .command .ecbEnc
  | 3 => .command .ecbDec
  | 4 => .command .cbcEnc
  | 5 => .command .cbcDec
  | _ => .illegal .reservedMode

/-- R97: the total decoder of command words. -/
def decode (w : Word) : Decoded :=
  if rsvField w ≠ 0 then .illegal .reservedBits else decodeOpcode (opcodeField w)

/-- The `DIR` bit of a command (R92). -/
def Instr.dir : Instr → BitVec 1
  | .encBlk => 0
  | .decBlk => 1
  | .ecbEnc => 0
  | .ecbDec => 1
  | .cbcEnc => 0
  | .cbcDec => 1

/-- The `MODE` field of a command (R92). -/
def Instr.mode : Instr → BitVec 2
  | .encBlk => 0
  | .decBlk => 0
  | .ecbEnc => 1
  | .ecbDec => 1
  | .cbcEnc => 2
  | .cbcDec => 2

/-- `OPCODE` of a command: `MODE` above `DIR` (R90). -/
def Instr.opcode (i : Instr) : BitVec 3 := i.mode ++ i.dir

/-- R97: the word of a command, `RSV` zero above the opcode. -/
def encode (i : Instr) : Word := (0 : BitVec 29) ++ i.opcode

/-- The command that the decoder reads from the low `nbits` bits of `w`, the bits above them zero: `CMD32` is one 32-bit
word (R90), so there is no longer form. -/
def decodeTableWord (nbits w : Nat) : Option Instr :=
  if nbits ≤ 32 then
    match decode (BitVec.ofNat 32 (w % 2 ^ nbits)) with
    | .command i => some i
    | .illegal _ => none
  else none

end Sys2Proof
end

