-- ==== Sys2Proof/Config.lean ====
section
/-! DEFINITION. What is fixed for the machine and what the spec leaves open: the constants of spec/00_scope.md R7, the open
parameters of R8, and the free values (opaque constants: nothing can be proved of their values) that stand for the
unspecified values of spec/93_implementation_defined.md U1, U2, U4 and U10, for a platform's bus addresses (U12), and for the
value of `cbc_decrypt` where R162 defines none. -/

namespace Sys2Proof

/-- The open parameters of R8. -/
structure Params where
  /-- `MAXLEN`, the capacity of `IBUF` in bytes: a natural number with `0 <= MAXLEN <= 2^32 - 17`, the bound held by the
  type. -/
  maxlen : Fin (2 ^ 32 - 16)
  /-- `REG_BASE`: where the platform places the register space on its bus. No rule reads it (R8, R73, log 13). -/
  regBase : Nat
  /-- `IBUF_BASE`: where the platform places the input buffer. No rule reads it (R8, R73, log 13). -/
  ibufBase : Nat
  /-- `OBUF_BASE`: where the platform places the output buffer. No rule reads it (R8, R73, log 13). -/
  obufBase : Nat
  deriving DecidableEq, Repr

namespace Config

/-- `DELTA`, the round constant (R7). -/
def delta : Word := 0x9E3779B9

/-- `DEFAULT_ROUNDS`: the default of `ROUNDS`, and the only round count of the buffer commands (R7, R145). -/
def defaultRounds : Nat := 32

/-- FREE VALUE (U12): the `REG_BASE` of the platform that `State.reset` stands on. DESIGN CHOICE, log 13. -/
opaque regBase : Nat

/-- FREE VALUE (U12): its `IBUF_BASE`. DESIGN CHOICE, log 13. -/
opaque ibufBase : Nat

/-- FREE VALUE (U12): its `OBUF_BASE`. DESIGN CHOICE, log 13. -/
opaque obufBase : Nat

/-- The reference configuration `MAXLEN = 4096` (R8), which names no bus address. DESIGN CHOICE, logs 4 and 13: `State.reset`
takes it. -/
def referenceParams : Params :=
  { maxlen := ⟨4096, by decide⟩, regBase := regBase, ibufBase := ibufBase, obufBase := obufBase }

/-- FREE VALUE (U1): what reset number `draw` leaves in the unspecified register at an offset. DESIGN CHOICE, log 5. -/
opaque resetReg (draw offset : Nat) : Word

/-- FREE VALUE (U1): what reset number `draw` leaves in the byte of `IBUF` at an index. DESIGN CHOICE, log 6. -/
opaque resetIbuf (draw index : Nat) : Byte

/-- FREE VALUE (U1, U4): what draw number `draw` (a reset, or the completion of a buffer command) leaves in a byte of
`OBUF` that holds no output. DESIGN CHOICE, logs 6 and 8. -/
opaque freeObuf (draw index : Nat) : Byte

/-- FREE VALUE (U1): what reset number `draw` leaves in `OP`. DESIGN CHOICE, log 7. -/
opaque resetOp (draw : Nat) : BitVec 3

/-- FREE VALUE (U1): what reset number `draw` leaves in the 32-bit hidden registers, by number: `BLK` 0, `RND` 1, `L` 2,
`R` 3, `SUM` 4. DESIGN CHOICE, log 7. -/
opaque resetHidden (draw which : Nat) : Word

/-- FREE VALUE (U1): what reset number `draw` leaves in `PREV`. DESIGN CHOICE, log 7. -/
opaque resetPrev (draw : Nat) : Block

/-- FREE VALUE (U2): what draw number `draw` returns for a read of `DOUT_HI`, `DOUT_LO` or `OLEN` while `BUSY = 1`. Log 9. -/
opaque busyWord (draw : Nat) : Word

/-- FREE VALUE (U2): what draw number `draw` returns for a read of `OBUF` while `BUSY = 1`. Log 9. -/
opaque busyByte (draw : Nat) : Byte

/-- FREE VALUE (U10): how many host accesses may come between the START that is draw number `draw` and its completion.
DESIGN CHOICE, log 3. -/
opaque latency (draw : Nat) : Nat

/-- FREE VALUE (R162): what the pure `cbc_decrypt` gives for a byte sequence whose length is not a multiple of 8, under a key
of four words: R162 does not define it there, and no command asks for it (R171). DESIGN CHOICE, log 17. -/
opaque raggedCbcDecrypt (d : List Byte) (k0 k1 k2 k3 : Word) : List Byte

end Config

end Sys2Proof
end

