-- ==== Sys2Proof/Machine/Cipher.lean ====
section
/-! DEFINITION. The block cipher engine as pure functions: the arithmetic primitives, the round function and the two block
functions (spec/40_block_engine.md R110 to R121, R125). -/

namespace Sys2Proof.Machine

/-- R110: addition modulo `2^32`. -/
def add32 (a b : Word) : Word := a + b

/-- R111: subtraction modulo `2^32`. -/
def sub32 (a b : Word) : Word := a - b

/-- R112: `(a * 16) mod 2^32`. -/
def shl4 (a : Word) : Word := a <<< 4

/-- R113: `floor(a / 32)`, a logical shift. -/
def shr5 (a : Word) : Word := a >>> 5

/-- R114: bitwise exclusive or of 32-bit values. -/
def xor32 (a b : Word) : Word := a ^^^ b

/-- R115: multiplication modulo `2^32`. -/
def mul32 (a b : Word) : Word := a * b

/-- R116: bitwise exclusive or of 64-bit values. -/
def xor64 (a b : Block) : Block := a ^^^ b

/-- R117: the round function `F(v, ka, kb, s)`. -/
def roundF (v ka kb s : Word) : Word :=
  xor32 (xor32 (add32 (shl4 v) ka) (add32 v s)) (add32 (shr5 v) kb)

/-- R118: `left = floor(b / 2^32)`. -/
def leftHalf (b : Block) : Word := b.extractLsb' 32 32

/-- R118: `right = b mod 2^32`. -/
def rightHalf (b : Block) : Word := b.extractLsb' 0 32

/-- R119: `join(left, right) = left * 2^32 + right`. -/
def join (left right : Word) : Block := left ++ right

/-- The key: four 32-bit words, order-significant (R21, R95). -/
structure Key where
  k0 : Word
  k1 : Word
  k2 : Word
  k3 : Word
  deriving DecidableEq, Repr

/-- The local variables of a block function: `L`, `R` and `SUM` of R120 and R121. -/
structure Work where
  l : Word
  r : Word
  sum : Word
  deriving DecidableEq, Repr

/-- One encryption round (R120): `SUM` is advanced first, and `R` is updated from the NEW `L` (R125). -/
def encRound (k : Key) (w : Work) : Work :=
  let sum := add32 w.sum Config.delta
  let l := add32 w.l (roundF w.r k.k0 k.k1 sum)
  let r := add32 w.r (roundF l k.k2 k.k3 sum)
  { l := l, r := r, sum := sum }

/-- One decryption round (R121): `R` is recovered first, `L` from the recovered `R`, and `SUM` is decremented last. -/
def decRound (k : Key) (w : Work) : Work :=
  let r := sub32 w.r (roundF w.l k.k2 k.k3 w.sum)
  let l := sub32 w.l (roundF r k.k0 k.k1 w.sum)
  { l := l, r := r, sum := sub32 w.sum Config.delta }

/-- The counted loop of R120. -/
def encRounds (k : Key) : Nat → Work → Work
  | 0, w => w
  | n + 1, w => encRounds k n (encRound k w)

/-- The counted loop of R121. -/
def decRounds (k : Key) : Nat → Work → Work
  | 0, w => w
  | n + 1, w => decRounds k n (decRound k w)

/-- `SUM` before the first encryption round (R120). -/
def encStart (b : Block) : Work := { l := leftHalf b, r := rightHalf b, sum := 0 }

/-- `SUM` before the first decryption round is `mul32(DELTA, rounds)` (R121). -/
def decStart (b : Block) (rounds : Nat) : Work :=
  { l := leftHalf b, r := rightHalf b, sum := mul32 Config.delta (BitVec.ofNat 32 rounds) }

/-- R120: `encrypt_block(b, key, rounds)`. -/
def encryptBlock (b : Block) (k : Key) (rounds : Nat) : Block :=
  let w := encRounds k rounds (encStart b)
  join w.l w.r

/-- R121: `decrypt_block(b, key, rounds)`. -/
def decryptBlock (b : Block) (k : Key) (rounds : Nat) : Block :=
  let w := decRounds k rounds (decStart b rounds)
  join w.l w.r

end Sys2Proof.Machine
end

