-- ==== Sys2Proof/Machine/State.lean ====
section
/-! DEFINITION. The state of TEA-CORE (spec/10_state.md R20 to R44), the host's accesses (spec/43_host_interface.md R180),
the reasons a step can stop, and the state after reset (R44, R230). -/

namespace Sys2Proof.Machine

/-- A byte buffer's contents: (index, byte) cells with strictly rising indices (`Memory.wf`). An index that is not listed
holds no byte that a rule gives: `readIbuf` and `readObuf` say what a read of it returns (logs 6 and 8). -/
abbrev Memory := List Host.Cell

/-- The canonical form of a buffer's contents: strictly rising indices. -/
def Memory.wf : Memory → Bool
  | [] => true
  | [_] => true
  | (a, _) :: (b, y) :: rest => decide (a < b) && Memory.wf ((b, y) :: rest)

/-- `STATUS` (R33). Bits 31:8 hold no state (they read 0 and ignore writes), so the five fields are all of it. -/
structure Status where
  /-- Bit 0: the engine executes an accepted command (R34). -/
  busy : Bool
  /-- Bit 1: the last accepted command has completed and its outputs are valid (R35). -/
  done : Bool
  /-- Bit 2: the last START was rejected (R36). -/
  err : Bool
  /-- Bit 3, sticky: the host wrote while `BUSY = 1` (R37). -/
  hzd : Bool
  /-- Bits 7:4: the code of the rejected START, 0 otherwise (R36, R201). -/
  ecode : BitVec 4
  deriving DecidableEq, Repr

/-- The engine's hidden registers (R42). -/
structure EngineRegs where
  /-- `OP`: the opcode of the running command. -/
  op : BitVec 3
  /-- `BLK`: the index of the current block. -/
  blk : Word
  /-- `RND`: the index of the current round. -/
  rnd : Word
  /-- `L`: TEADOC's `left`. -/
  l : Word
  /-- `R`: TEADOC's `right`. -/
  r : Word
  /-- `SUM`: the round accumulator. -/
  sum : Word
  /-- `PREV`: the CBC chaining value. -/
  prev : Block
  deriving DecidableEq, Repr

/-- The two buffers (R65). -/
inductive Space where
  | ibuf
  | obuf
  deriving DecidableEq, Repr

/-- What the outside world can do to the block: the four host operations of R180, `wait` (R100, R190) and the reset input
(R230). Offsets and indices are plain numbers, so that an access the architecture does not have (R66, R67) can be written
down and refused by name. -/
inductive Access where
  /-- `rd`: a 32-bit read of the register at an offset (R181). -/
  | rd (offset : Nat)
  /-- `wr`: a 32-bit write of the register at an offset (R182). -/
  | wr (offset : Nat) (value : Word)
  /-- `rdb`: a read of one buffer byte (R184). -/
  | rdb (space : Space) (index : Nat)
  /-- `wrb`: a write of one buffer byte (R183). -/
  | wrb (space : Space) (index : Nat) (value : Byte)
  /-- `wait`: poll `STATUS` until `BUSY` reads 0 (R100, R190). -/
  | wait
  /-- The reset input is asserted and released (R230). -/
  | reset
  deriving DecidableEq, Repr

/-- A value a host read returned: the block's only output (R180). -/
inductive Reply where
  | word (offset : Nat) (value : Word)
  | byte (space : Space) (index : Nat) (value : Byte)
  deriving DecidableEq, Repr

/-- The whole state. -/
structure State where
  /-- The configuration (R8): no step writes it (log 4). -/
  params : Params
  key0 : Word
  key1 : Word
  key2 : Word
  key3 : Word
  ivHi : Word
  ivLo : Word
  dinHi : Word
  dinLo : Word
  doutHi : Word
  doutLo : Word
  rounds : Word
  len : Word
  olen : Word
  status : Status
  ibuf : Memory
  obuf : Memory
  eng : EngineRegs
  /-- The model's own: the accesses the host has still to make, in program order (log 2). -/
  host : List Access
  /-- The model's own: the values the host's reads returned, oldest first (log 2). -/
  replies : List Reply
  /-- The model's own: how many host accesses may still come before the engine's completion (log 3). -/
  due : Nat
  /-- The model's own: how many free values were drawn (log 9). -/
  draws : Nat
  /-- The model's own: the draw that the unlisted bytes of `IBUF` read from (log 6). -/
  ibufDraw : Nat
  /-- The model's own: the draw that the unlisted bytes of `OBUF` read from (logs 6 and 8). -/
  obufDraw : Nat
  deriving DecidableEq, Repr

/-- Why the machine can stop. No state that a run from reset reaches takes either (R214, log 12). -/
inductive Fault where
  /-- Raised by the completion of a buffer command when `LEN` is one that its START would have rejected (`LEN > MAXLEN`, or
  a ragged `LEN` for `CBC_DEC`): the engine would read outside `IBUF` (R67), or the function is not defined (R171). Safe. -/
  | notAccepted
  /-- Raised by the engine's turn when `BUSY = 1` and `OP` is 6 or 7, which no START latches (R185). Safe. -/
  | illegalOp
  deriving DecidableEq, Repr

/-- Why a step can be refused. -/
inductive Refusal where
  /-- The instruction has no meaning yet: the dispatcher raises it, a meaning never does. Safe. -/
  | notModelled (mnemonic : String)
  /-- A host register access at an offset that is not a multiple of 4: not part of the architecture (R66, U6). Safe. -/
  | misalignedRegister
  /-- A host register access at an offset beyond `0xFC` (R66, U6). Safe. -/
  | registerOutOfSpace
  /-- A host buffer access at an index outside its space: it names nothing (R67, U6). Safe. -/
  | bufferIndexOutOfSpace
  deriving DecidableEq, Repr

/-- `STATUS` after reset: `0x00000000` (R44). -/
def Status.reset : Status := { busy := false, done := false, err := false, hzd := false, ecode := 0 }

/-- The state that the reset which is draw number `draw` leaves (R44, R230): the values R44 states, and a free value for
everything it calls unspecified (U1). The configuration and the host agent's own progress are not the block's. -/
def State.afterReset (draw : Nat) (params : Params) (host : List Access) (replies : List Reply) : State where
  params := params
  key0 := Config.resetReg draw 0x20
  key1 := Config.resetReg draw 0x24
  key2 := Config.resetReg draw 0x28
  key3 := Config.resetReg draw 0x2C
  ivHi := Config.resetReg draw 0x30
  ivLo := Config.resetReg draw 0x34
  dinHi := Config.resetReg draw 0x40
  dinLo := Config.resetReg draw 0x44
  doutHi := Config.resetReg draw 0x48
  doutLo := Config.resetReg draw 0x4C
  rounds := 32
  len := 0
  olen := 0
  status := Status.reset
  ibuf := []
  obuf := []
  eng :=
    { op := Config.resetOp draw, blk := Config.resetHidden draw 0, rnd := Config.resetHidden draw 1,
      l := Config.resetHidden draw 2, r := Config.resetHidden draw 3, sum := Config.resetHidden draw 4,
      prev := Config.resetPrev draw }
  host := host
  replies := replies
  due := 0
  draws := draw + 1
  ibufDraw := draw
  obufDraw := draw

/-- The machine right after reset (R44), in the reference configuration (R8), with no host access pending. -/
def State.reset : State := State.afterReset 0 Config.referenceParams [] []

end Sys2Proof.Machine
end

