-- ==== Sys2Proof/Machine/Flags.lean ====
section
/-! DEFINITION. The flags: the bits of `STATUS`, who sets and who clears them (spec/10_state.md R32 to R38,
spec/43_host_interface.md R185, R186, R188, spec/60_exceptions.md R201, R206, R209). There are no arithmetic flags (R32). -/

namespace Sys2Proof.Machine

/-- The errors of R201. -/
inductive ErrorCode where
  /-- An illegal command word (R202). -/
  | badOp
  /-- A buffer command with `LEN > MAXLEN` (R203). -/
  | lenRange
  /-- `CBC_DEC` with `LEN mod 8 != 0` (R204). -/
  | lenRagged
  deriving DecidableEq, Repr

/-- R201: `ECODE`. -/
def errorNumber : ErrorCode → BitVec 4
  | .badOp => 1
  | .lenRange => 2
  | .lenRagged => 3

/-- What a read of `STATUS` returns (R33): bits 31:8 read 0. -/
def statusWord (t : Status) : Word :=
  (0 : BitVec 24) ++ t.ecode ++ BitVec.ofBool t.hzd ++ BitVec.ofBool t.err ++ BitVec.ofBool t.done ++ BitVec.ofBool t.busy

/-- R38: a host write of `w` to `STATUS`. -/
def statusWrite (w : Word) (t : Status) : Status :=
  { t with
    done := t.done && !w.getLsbD 1
    err := t.err && !w.getLsbD 2
    ecode := if w.getLsbD 2 then 0 else t.ecode
    hzd := t.hzd && !w.getLsbD 3 }

/-- R185: the first line of START. -/
def statusCleared (t : Status) : Status := { t with done := false, err := false, ecode := 0 }

/-- R185: an accepted START. -/
def statusStarted (t : Status) : Status := { statusCleared t with busy := true }

/-- R206: a rejected START. -/
def statusRaised (e : ErrorCode) (t : Status) : Status :=
  { statusCleared t with err := true, ecode := errorNumber e }

/-- R186: completion. -/
def statusCompleted (t : Status) : Status := { t with busy := false, done := true }

/-- R37: a host write while `BUSY = 1`. -/
def statusHazard (t : Status) : Status := { t with hzd := true }

end Sys2Proof.Machine
end

