-- ==== Sys2Proof/WellFormed.lean ====
section
/-! DEFINITION. Well-formedness: of a command (which has no operand, R94) and of a host access (the widths and ranges of
spec/20_memory.md R65 to R67). -/

namespace Sys2Proof

/-- Every command is well-formed: operands are implicit (R94), so no field of a command can be out of range. -/
def Instr.wellFormed : Instr → Bool
  | .encBlk => true
  | .decBlk => true
  | .ecbEnc => true
  | .ecbDec => true
  | .cbcEnc => true
  | .cbcDec => true

namespace Machine

/-- A register offset is a multiple of 4 (R66). -/
def offsetAligned (offset : Nat) : Bool := offset % 4 == 0

/-- A register offset is inside the 256-byte register space (R65, R66). -/
def offsetInSpace (offset : Nat) : Bool := decide (offset < 256)

/-- The size of a buffer in bytes: `MAXLEN`, and `OCAP = MAXLEN + 16` (R65). -/
def Space.size (p : Params) : Space → Nat
  | .ibuf => p.maxlen.val
  | .obuf => p.maxlen.val + 16

/-- A buffer index is inside its space (R67). -/
def indexInSpace (p : Params) (space : Space) (index : Nat) : Bool := decide (index < space.size p)

/-- The accesses the architecture has (R65 to R67). -/
def Access.wellFormed (p : Params) : Access → Bool
  | .rd offset => offsetAligned offset && offsetInSpace offset
  | .wr offset _ => offsetAligned offset && offsetInSpace offset
  | .rdb space index => indexInSpace p space index
  | .wrb space index _ => indexInSpace p space index
  | .wait => true
  | .reset => true

end Machine

end Sys2Proof
end

