-- ==== Sys2Proof/Machine/Ops.lean ====
section
/-! DEFINITION. The named operations over buffers and registers, and the steps that every command shares: the error entry
(spec/60_exceptions.md R206), the accepted START and the completion (spec/43_host_interface.md R185, R186), and reset (R230). -/

namespace Sys2Proof.Machine

/-! ### Buffers -/

/-- The byte listed at an index, if one is. -/
def Memory.get? : Memory → Nat → Option Byte
  | [], _ => none
  | (i, b) :: rest, a => if i = a then some b else Memory.get? rest a

/-- Write one byte, keeping the indices strictly rising. -/
def Memory.write : Memory → Nat → Byte → Memory
  | [], a, v => [(a, v)]
  | (i, b) :: rest, a, v =>
    if a < i then (a, v) :: (i, b) :: rest
    else if a = i then (a, v) :: rest
    else (i, b) :: Memory.write rest a v

/-- Write a byte sequence from an index on (`MemWrite`, R10). -/
def Memory.writeBytes : Memory → Nat → List Byte → Memory
  | m, _, [] => m
  | m, a, v :: vs => Memory.writeBytes (Memory.write m a v) (a + 1) vs

/-- A byte of `IBUF`: the one written last, or the free value that reset left (U1, log 6). -/
def readIbuf (s : State) (i : Nat) : Byte := (s.ibuf.get? i).getD (Config.resetIbuf s.ibufDraw i)

/-- A byte of `OBUF` while `BUSY = 0`: the one the last buffer command wrote, or a free value (U1, U4, logs 6 and 8). -/
def readObuf (s : State) (i : Nat) : Byte := (s.obuf.get? i).getD (Config.freeObuf s.obufDraw i)

/-- `MemRead(IBUF, i, n)` (R10): `n` bytes in index order. -/
def readIbufBytes (s : State) : Nat → Nat → List Byte
  | _, 0 => []
  | i, n + 1 => readIbuf s i :: readIbufBytes s (i + 1) n

/-- R183, not busy: store one byte of `IBUF`. -/
def storeIbuf (i : Nat) (b : Byte) (s : State) : State := { s with ibuf := s.ibuf.write i b }

/-- The output of a buffer command (R146, R147, R163, R164): `OBUF[0..OLEN)` and `OLEN`. The bytes at and beyond `OLEN`
hold an unspecified value from now on (R41, U4): they are unlisted and read a fresh draw. -/
def storeOutput (out : List Byte) (s : State) : State :=
  { s with
    obuf := Memory.writeBytes [] 0 out
    olen := BitVec.ofNat 32 out.length
    obufDraw := s.draws
    draws := s.draws + 1 }

/-! ### Registers -/

/-- The registers of R29, and every other offset of the space. -/
inductive Reg where
  | cmd
  | status
  | rounds
  | len
  | olen
  | key0
  | key1
  | key2
  | key3
  | ivHi
  | ivLo
  | dinHi
  | dinLo
  | doutHi
  | doutLo
  | reserved
  deriving DecidableEq, Repr

/-- The register map (R29, R71). -/
def regAt (offset : Nat) : Reg :=
  match offset with
  | 0x00 => .cmd
  | 0x04 => .status
  | 0x08 => .rounds
  | 0x0C => .len
  | 0x10 => .olen
  | 0x20 => .key0
  | 0x24 => .key1
  | 0x28 => .key2
  | 0x2C => .key3
  | 0x30 => .ivHi
  | 0x34 => .ivLo
  | 0x40 => .dinHi
  | 0x44 => .dinLo
  | 0x48 => .doutHi
  | 0x4C => .doutLo
  | _ => .reserved

/-- The registers whose value while `BUSY = 1` is unspecified (R181, U2). -/
def Reg.isOutput : Reg → Bool
  | .olen => true
  | .doutHi => true
  | .doutLo => true
  | _ => false

/-- What a register holds; `CMD` and the reserved offsets read 0 (R28, R72). -/
def regValue (s : State) : Reg → Word
  | .cmd => 0
  | .status => statusWord s.status
  | .rounds => s.rounds
  | .len => s.len
  | .olen => s.olen
  | .key0 => s.key0
  | .key1 => s.key1
  | .key2 => s.key2
  | .key3 => s.key3
  | .ivHi => s.ivHi
  | .ivLo => s.ivLo
  | .dinHi => s.dinHi
  | .dinLo => s.dinLo
  | .doutHi => s.doutHi
  | .doutLo => s.doutLo
  | .reserved => 0

/-- R182, the last two branches: a write to a read-write register stores; a write to any other is discarded. -/
def storeReg (reg : Reg) (v : Word) (s : State) : State :=
  match reg with
  | .rounds => { s with rounds := v }
  | .len => { s with len := v }
  | .key0 => { s with key0 := v }
  | .key1 => { s with key1 := v }
  | .key2 => { s with key2 := v }
  | .key3 => { s with key3 := v }
  | .ivHi => { s with ivHi := v }
  | .ivLo => { s with ivLo := v }
  | .dinHi => { s with dinHi := v }
  | .dinLo => { s with dinLo := v }
  | .cmd | .status | .olen | .doutHi | .doutLo | .reserved => s

/-- R122, R123: the result of a block command goes to `DOUT`. -/
def storeDout (v : Block) (s : State) : State := { s with doutHi := leftHalf v, doutLo := rightHalf v }

/-- Replace `STATUS`. -/
def setStatus (t : Status) (s : State) : State := { s with status := t }

/-- Replace the engine's hidden registers. -/
def setEngine (e : EngineRegs) (s : State) : State := { s with eng := e }

/-! ### The steps every command shares -/

/-- TAKING AN ERROR, `raise <Error>(code)` (R206): `ERR <- 1`, `ECODE <- code`, `DONE <- 0`, `BUSY` stays 0, and nothing
else changes. There is no saved state and no return instruction: R209's return is a host write of 1 to `STATUS` bit 2
(`statusWrite`) or the next START (`statusCleared`). -/
def raiseError (e : ErrorCode) (s : State) : State := setStatus (statusRaised e s.status) s

/-- The accepted START (R185): the flags, and the opcode latched in `OP`. How many host accesses may come before the
completion is drawn here (U10, log 3). -/
def acceptStart (op : BitVec 3) (s : State) : State :=
  { s with
    status := statusStarted s.status
    eng := { s.eng with op := op }
    due := Config.latency s.draws
    draws := s.draws + 1 }

/-- The end of the completion step (R186): `BUSY <- 0`, `DONE <- 1`. -/
def complete (s : State) : State := setStatus (statusCompleted s.status) s

/-- A command of opcode `op`. With `BUSY = 0` it is STARTED (R185): `check` says which error START raises, if any. With
`BUSY = 1` the engine takes the completion step it owes (R186): `run` is the command's pseudocode. A completion in a state
that START would have rejected is no behaviour of the spec (R214): a fault (log 12). -/
def command (op : BitVec 3) (check : State → Option ErrorCode) (run : State → State) (s : State) :
    Host.Outcome State Fault Refusal :=
  match s.status.busy, check s with
  | false, some e => .next (raiseError e s)
  | false, none => .next (acceptStart op s)
  | true, none => .next (complete (run s))
  | true, some _ => .fault .notAccepted

/-- R185: the block commands have no precondition. -/
def checkNothing (_ : State) : Option ErrorCode := none

/-- R185, R203: a buffer command whose input would not fit `IBUF`. -/
def checkRange (s : State) : Option ErrorCode :=
  if s.params.maxlen.val < s.len.toNat then some .lenRange else none

/-- R185, R204, R208: `CBC_DEC` checks the range first, then that `LEN` is a multiple of 8. -/
def checkRangeAndRagged (s : State) : Option ErrorCode :=
  if s.params.maxlen.val < s.len.toNat then some .lenRange
  else if s.len.toNat % 8 ≠ 0 then some .lenRagged
  else none

/-! ### Hidden registers -/

/-- What the last round of a block leaves in `RND`, `L`, `R` and `SUM` (R31, R42, R129): the round count, the two halves of
the block function's result, and the accumulator, `mul32(DELTA, rounds)` after encryption and 0 after decryption. -/
def engineAfterBlock (sum rounds : Word) (y : Block) (e : EngineRegs) : EngineRegs :=
  { e with rnd := rounds, l := leftHalf y, r := rightHalf y, sum := sum }

/-- `BLK` at the end of a command: the block count (R31). -/
def engineAtBlock (n : Nat) (e : EngineRegs) : EngineRegs := { e with blk := BitVec.ofNat 32 n }

/-- `PREV` at the end of a CBC command (R42, R166). -/
def engineChained (prev : Block) (e : EngineRegs) : EngineRegs := { e with prev := prev }

/-! ### Reset -/

/-- R230, R232: the reset input. The configuration stays, and so does what the host still has to do and what it has read;
a running command is abandoned. -/
def applyReset (s : State) : State := State.afterReset s.draws s.params s.host s.replies

/-! ### Placing a command -/

/-- The state with the command word `w` placed so that the next step runs it: a legal word as an accepted START leaves it
(R185: `OP` latched, `BUSY = 1`), its completion due now; an illegal word, which no START accepts, as the host's next access,
the write of `CMD`. Log 2. -/
def placeCommand (w : Word) (placed : Option Instr) (s : State) : State :=
  match placed with
  | some i => { s with status := statusStarted s.status, eng := { s.eng with op := i.opcode }, due := 0 }
  | none => { s with status := { s.status with busy := false }, host := .wr 0x00 w :: s.host }

end Sys2Proof.Machine
end

