-- ==== Sys2Proof/Machine/Operands.lean ====
section
/-! DEFINITION. How each implicit operand is formed from the state (spec/30_encoding.md R94, R95). -/

namespace Sys2Proof.Machine

/-- The key: `[KEY0, KEY1, KEY2, KEY3]` in that order. -/
def keyOperand (s : State) : Key := { k0 := s.key0, k1 := s.key1, k2 := s.key2, k3 := s.key3 }

/-- The block: `DIN_HI * 2^32 + DIN_LO`. -/
def blockOperand (s : State) : Block := join s.dinHi s.dinLo

/-- The initialization vector: `IV_HI * 2^32 + IV_LO`. -/
def ivOperand (s : State) : Block := join s.ivHi s.ivLo

/-- The round count of the block commands: the unsigned value of `ROUNDS`. -/
def roundsOperand (s : State) : Nat := s.rounds.toNat

/-- The byte operand of the buffer commands: `MemRead(IBUF, 0, LEN)`. -/
def bytesOperand (s : State) : List Byte := readIbufBytes s 0 s.len.toNat

end Sys2Proof.Machine
end

