-- ==== Sys2Proof/Machine/BlockCommands.lean ====
section
/-! DEFINITION. The two block commands (spec/40_block_engine.md R122, R123). -/

namespace Sys2Proof.Machine

/-- The pseudocode of R122: `DOUT <- encrypt_block(DIN, KEY, ROUNDS)`. -/
def runEncBlk (s : State) : State :=
  let v := encryptBlock (blockOperand s) (keyOperand s) (roundsOperand s)
  setEngine (engineAtBlock 1 (engineAfterBlock (mul32 Config.delta s.rounds) s.rounds v s.eng)) (storeDout v s)

/-- The pseudocode of R123: `DOUT <- decrypt_block(DIN, KEY, ROUNDS)`. -/
def runDecBlk (s : State) : State :=
  let v := decryptBlock (blockOperand s) (keyOperand s) (roundsOperand s)
  setEngine (engineAtBlock 1 (engineAfterBlock 0 s.rounds v s.eng)) (storeDout v s)

/-- `ENC_BLK` (R122). -/
def execEncBlk (s : State) : Host.Outcome State Fault Refusal := command 0 checkNothing runEncBlk s

/-- `DEC_BLK` (R123). -/
def execDecBlk (s : State) : Host.Outcome State Fault Refusal := command 1 checkNothing runDecBlk s

end Sys2Proof.Machine
end

