-- ==== Sys2Proof/Machine/Bytes.lean ====
section
/-! DEFINITION. Byte order: eight bytes to a block and back, big-endian (spec/20_memory.md R60 to R63), and a byte sequence as
a list of blocks (spec/41_ecb.md R140, R141). -/

namespace Sys2Proof.Machine

/-- R60: the block of eight bytes, the byte at the lowest index the most significant. -/
def be64 (b0 b1 b2 b3 b4 b5 b6 b7 : Byte) : Block :=
  b0 ++ b1 ++ b2 ++ b3 ++ b4 ++ b5 ++ b6 ++ b7

/-- R60 on an 8-byte buffer, TEADOC's form of an IV (R64). -/
def be64Buffer (s : Vector Byte 8) : Block := be64 s[0] s[1] s[2] s[3] s[4] s[5] s[6] s[7]

/-- R61: the eight bytes of a block, `t[i] = v[63-8i : 56-8i]`. -/
def bytes8 (v : Block) : List Byte :=
  [v.extractLsb' 56 8, v.extractLsb' 48 8, v.extractLsb' 40 8, v.extractLsb' 32 8,
   v.extractLsb' 24 8, v.extractLsb' 16 8, v.extractLsb' 8 8, v.extractLsb' 0 8]

/-- R140: the blocks of a byte sequence whose length is a multiple of 8, block 0 first. -/
def blocksOf : List Byte → List Block
  | b0 :: b1 :: b2 :: b3 :: b4 :: b5 :: b6 :: b7 :: rest => be64 b0 b1 b2 b3 b4 b5 b6 b7 :: blocksOf rest
  | _ => []

/-- R142: the bytes of a sequence of output blocks, in the order of the blocks. -/
def bytesOf (blocks : List Block) : List Byte := blocks.flatMap bytes8

/-- `zeros(n)`: `n` bytes of value `0x00` (R9). -/
def zeros (n : Nat) : List Byte := List.replicate n 0

end Sys2Proof.Machine
end

