-- ==== Sys2Proof/Machine/Modes.lean ====
section
/-! DEFINITION. The mode functions as pure functions on byte sequences: the two padding rules, ECB and CBC
(spec/41_ecb.md R143 to R145, spec/42_cbc.md R160 to R162, R170). Every block is run for 32 rounds (R145). -/

namespace Sys2Proof.Machine

/-- TEADOC's `direction` argument: the `DIR` bit (R90). -/
inductive Direction where
  | encrypt
  | decrypt
  deriving DecidableEq, Repr

/-- R143: `pad_ecb(d) = d || zeros(8 - (n mod 8))`: never fewer than one zero byte. -/
def padEcb (d : List Byte) : List Byte := d ++ zeros (8 - d.length % 8)

/-- R160: `pad_cbc(d) = d || zeros((8 - (n mod 8)) mod 8)`. -/
def padCbc (d : List Byte) : List Byte := d ++ zeros ((8 - d.length % 8) % 8)

/-- The block function of a direction, with the round count of R145. -/
def blockFunction (dir : Direction) (k : Key) (x : Block) : Block :=
  match dir with
  | .encrypt => encryptBlock x k Config.defaultRounds
  | .decrypt => decryptBlock x k Config.defaultRounds

/-- R144: `ecb_transform(d, key, direction)`. -/
def ecbTransform (d : List Byte) (k : Key) (dir : Direction) : List Byte :=
  bytesOf ((blocksOf (padEcb d)).map (blockFunction dir k))

/-- The chain of R161: each block is XORed with the previous ciphertext block before it is encrypted. -/
def cbcEncryptBlocks (k : Key) : Block → List Block → List Block
  | _, [] => []
  | prev, p :: ps =>
    let c := encryptBlock (xor64 p prev) k Config.defaultRounds
    c :: cbcEncryptBlocks k c ps

/-- R161: `cbc_encrypt(d, key, iv)`: the IV verbatim, then the ciphertext blocks. -/
def cbcEncrypt (d : List Byte) (k : Key) (iv : Block) : List Byte :=
  bytes8 iv ++ bytesOf (cbcEncryptBlocks k iv (blocksOf (padCbc d)))

/-- The chain of R162: each block is XORed with the previous CIPHERTEXT block after it is decrypted (R166). -/
def cbcDecryptBlocks (k : Key) : Block → List Block → List Block
  | _, [] => []
  | prev, c :: cs => xor64 (decryptBlock c k Config.defaultRounds) prev :: cbcDecryptBlocks k c cs

/-- The algorithm of R162 on blocks: the first block is the IV, and no block at all gives the empty sequence (R170). -/
def cbcDecryptWhole (k : Key) : List Block → List Byte
  | [] => []
  | iv :: cs => bytesOf (cbcDecryptBlocks k iv cs)

/-- R162: `cbc_decrypt(d, key)`. For a length that is a multiple of 8 it is the algorithm of R162. For any other length R162
says that the function is not defined: DESIGN CHOICE, log 17: a free value there, neither a result of the dropped tail nor
of a padded one. No command reaches that case (R171, log 14). -/
def cbcDecrypt (d : List Byte) (k : Key) : List Byte :=
  if d.length % 8 = 0 then cbcDecryptWhole k (blocksOf d) else Config.raggedCbcDecrypt d k.k0 k.k1 k.k2 k.k3

end Sys2Proof.Machine
end

