-- ==== Sys2Proof/Machine/EcbCommands.lean ====
section
/-! DEFINITION. The two ECB commands (spec/41_ecb.md R146, R147). -/

namespace Sys2Proof.Machine

/-- `SUM` after the last of the 32 rounds of a block (R129). -/
def sumAfterBlock : Direction → Word
  | .encrypt => mul32 Config.delta 32
  | .decrypt => 0

/-- The hidden registers after the blocks whose block-function results are `ys` (R31): unchanged but for `BLK` if there
are none. -/
def engineAfterBlocks (dir : Direction) (ys : List Block) (e : EngineRegs) : EngineRegs :=
  match ys.getLast? with
  | some y => engineAtBlock ys.length (engineAfterBlock (sumAfterBlock dir) 32 y e)
  | none => engineAtBlock 0 e

/-- The pseudocode of R146 and R147: `OBUF, OLEN <- ecb_transform(IBUF[0..LEN), KEY, direction)`. -/
def runEcb (dir : Direction) (s : State) : State :=
  let out := ecbTransform (bytesOperand s) (keyOperand s) dir
  setEngine (engineAfterBlocks dir (blocksOf out) s.eng) (storeOutput out s)

/-- `ECB_ENC` (R146). -/
def execEcbEnc (s : State) : Host.Outcome State Fault Refusal := command 2 checkRange (runEcb .encrypt) s

/-- `ECB_DEC` (R147). -/
def execEcbDec (s : State) : Host.Outcome State Fault Refusal := command 3 checkRange (runEcb .decrypt) s

end Sys2Proof.Machine
end

