-- ==== Sys2Proof/Machine/CbcCommands.lean ====
section
/-! DEFINITION. The two CBC commands (spec/42_cbc.md R163, R164). -/

namespace Sys2Proof.Machine

/-- The hidden registers after `CBC_ENC`, whose output blocks are the IV and then the ciphertext: `PREV` is the last of
them (R166). -/
def engineAfterCbcEnc (ys : List Block) (e : EngineRegs) : EngineRegs :=
  engineAfterBlocks .encrypt ys.tail
    (match ys.getLast? with
    | some y => engineChained y e
    | none => e)

/-- The hidden registers after `CBC_DEC`, whose input blocks are the IV and then the ciphertext: `PREV` is the last of
them (R166); with no input, nothing but `BLK` changes (R170, R187). -/
def engineAfterCbcDec (k : Key) (xs : List Block) (e : EngineRegs) : EngineRegs :=
  engineAfterBlocks .decrypt (xs.tail.map (blockFunction .decrypt k))
    (match xs.getLast? with
    | some x => engineChained x e
    | none => e)

/-- The pseudocode of R163: `OBUF, OLEN <- cbc_encrypt(IBUF[0..LEN), KEY, IV)`. -/
def runCbcEnc (s : State) : State :=
  let out := cbcEncrypt (bytesOperand s) (keyOperand s) (ivOperand s)
  setEngine (engineAfterCbcEnc (blocksOf out) s.eng) (storeOutput out s)

/-- The pseudocode of R164: `OBUF, OLEN <- cbc_decrypt(IBUF[0..LEN), KEY)`. -/
def runCbcDec (s : State) : State :=
  let d := bytesOperand s
  setEngine (engineAfterCbcDec (keyOperand s) (blocksOf d) s.eng) (storeOutput (cbcDecrypt d (keyOperand s)) s)

/-- `CBC_ENC` (R163). -/
def execCbcEnc (s : State) : Host.Outcome State Fault Refusal := command 4 checkRange runCbcEnc s

/-- `CBC_DEC` (R164). -/
def execCbcDec (s : State) : Host.Outcome State Fault Refusal := command 5 checkRangeAndRagged runCbcDec s

end Sys2Proof.Machine
end

