-- ==== Sys2Proof/Machine/Agents.lean ====
section
/-! DEFINITION. The two agents (spec/00_scope.md R12): the host's accesses (spec/43_host_interface.md R180 to R190) and the
engine's turn (R186), and which of them moves next (log 3). -/

namespace Sys2Proof.Machine

/-- Append a value that a host read returned (log 2). -/
def reply (r : Reply) (s : State) : State := { s with replies := s.replies ++ [r] }

/-- One free value was drawn (log 9). -/
def countDraw (s : State) : State := { s with draws := s.draws + 1 }

/-- R37: a host write while `BUSY = 1` is discarded and sets `HZD`. -/
def hazard (s : State) : State := setStatus (statusHazard s.status) s

/-- Why a register access is refused, if it is (R66). -/
def offsetRefusal (offset : Nat) : Option Refusal :=
  if !offsetAligned offset then some .misalignedRegister
  else if !offsetInSpace offset then some .registerOutOfSpace
  else none

/-- Why a buffer access is refused, if it is (R67). -/
def indexRefusal (p : Params) (space : Space) (index : Nat) : Option Refusal :=
  if indexInSpace p space index then none else some .bufferIndexOutOfSpace

/-- Why a host access is refused, if it is: exactly the accesses that are not `Access.wellFormed`. -/
def accessRefusal (p : Params) : Access → Option Refusal
  | .rd offset => offsetRefusal offset
  | .wr offset _ => offsetRefusal offset
  | .rdb space index => indexRefusal p space index
  | .wrb space index _ => indexRefusal p space index
  | .wait => none
  | .reset => none

/-- `rd` (R181): while `BUSY = 1`, `DOUT_HI`, `DOUT_LO` and `OLEN` return a fresh free value (U2, log 9). -/
def hostRead (offset : Nat) (s : State) : State :=
  if s.status.busy && (regAt offset).isOutput then
    countDraw (reply (.word offset (Config.busyWord s.draws)) s)
  else reply (.word offset (regValue s (regAt offset))) s

/-- `rdb` (R184): while `BUSY = 1`, `OBUF` returns a fresh free value (U2, log 9). -/
def hostReadByte (space : Space) (index : Nat) (s : State) : State :=
  match space with
  | .ibuf => reply (.byte .ibuf index (readIbuf s index)) s
  | .obuf =>
    if s.status.busy then countDraw (reply (.byte .obuf index (Config.busyByte s.draws)) s)
    else reply (.byte .obuf index (readObuf s index)) s

/-- START (R185) of the word written to `CMD`: an illegal word raises `BAD_OP` (R202); a legal one is the START of its
command, whose meaning makes the command's own checks (R208: after `BAD_OP`). -/
def startCommand (w : Word) (s : State) : Host.Outcome State Fault Refusal :=
  match decode w with
  | .command i => exec i s
  | .illegal _ => .next (raiseError .badOp s)

/-- `wr` (R182), branch by branch. -/
def hostWrite (offset : Nat) (v : Word) (s : State) : Host.Outcome State Fault Refusal :=
  if regAt offset = .status then .next (setStatus (statusWrite v s.status) s)
  else if s.status.busy then .next (hazard s)
  else if regAt offset = .cmd then startCommand v s
  else .next (storeReg (regAt offset) v s)

/-- `wrb` (R183): a write to `OBUF` is discarded. -/
def hostWriteByte (space : Space) (index : Nat) (b : Byte) (s : State) : State :=
  if s.status.busy then hazard s
  else
    match space with
    | .ibuf => storeIbuf index b s
    | .obuf => s

/-- An access that the architecture has. `wait` ends with the read of `STATUS` that finds `BUSY = 0` (R190, log 3). -/
def makeAccess (a : Access) (s : State) : Host.Outcome State Fault Refusal :=
  match a with
  | .rd offset => .next (hostRead offset s)
  | .wr offset v => hostWrite offset v s
  | .rdb space index => .next (hostReadByte space index s)
  | .wrb space index b => .next (hostWriteByte space index b s)
  | .wait => .next (hostRead 0x04 s)
  | .reset => .next (applyReset s)

/-- One access of the host: refused by name if the architecture does not have it (R66, R67, U6). -/
def hostTurn (a : Access) (s : State) : Host.Outcome State Fault Refusal :=
  match accessRefusal s.params a with
  | some why => .refused why
  | none => makeAccess a s

/-- The engine's turn (R186): the completion step of the command in `OP`. -/
def engineTurn (s : State) : Host.Outcome State Fault Refusal :=
  match decodeOpcode s.eng.op with
  | .command i => exec i s
  | .illegal _ => .fault .illegalOp

/-- While `BUSY = 1` the engine moves when its completion is due, or when the host makes no access before it (it has none
left, or it waits for `BUSY = 0`). -/
def engineMoves (s : State) : Bool :=
  match s.host with
  | [] => true
  | .wait :: _ => true
  | _ :: _ => s.due == 0

/-- The host's next access is under way: one access fewer before the completion. -/
def takeAccess (rest : List Access) (s : State) : State := { s with host := rest, due := s.due - 1 }

/-- One step of the machine: the engine's turn or the host's; with nothing to do, the idle block holds its state (R220). -/
def nextStep (s : State) : Host.Outcome State Fault Refusal :=
  if s.status.busy && engineMoves s then engineTurn s
  else
    match s.host with
    | [] => .next s
    | a :: rest => hostTurn a (takeAccess rest s)

end Sys2Proof.Machine
end

