-- ==== Sys2Proof/Machine/Sequencer.lean ====
section
/-! DEFINITION. The reference micro-sequence of spec/43_host_interface.md R187 over the hidden registers of
spec/10_state.md R42 (`BLK` and `RND` as R31 says): the smaller steps of which `exec`'s completion is the whole. The two are
written apart; the obligation MicroSequenceEqualsCompletion says that they agree. -/

namespace Sys2Proof.Machine

/-- The block count `n` of a command (R31, R143, R161, R162, R242). -/
def seqBlockCount (i : Instr) (s : State) : Nat :=
  match i with
  | .encBlk => 1
  | .decBlk => 1
  | .ecbEnc => s.len.toNat / 8 + 1
  | .ecbDec => s.len.toNat / 8 + 1
  | .cbcEnc => (s.len.toNat + 7) / 8
  | .cbcDec => s.len.toNat / 8 - 1

/-- The round count: `ROUNDS` for the block commands, 32 for the buffer commands (R31, R145). -/
def seqRoundCount (i : Instr) (s : State) : Word :=
  match i with
  | .encBlk => s.rounds
  | .decBlk => s.rounds
  | .ecbEnc => 32
  | .ecbDec => 32
  | .cbcEnc => 32
  | .cbcDec => 32

/-- A byte of the padded input: below `LEN` from `IBUF`, at or above it a zero that the engine supplies (R141). -/
def seqInputByte (s : State) (k : Nat) : Byte := if k < s.len.toNat then readIbuf s k else 0

/-- The block of the padded input whose first byte has index `k`. -/
def seqInputAt (s : State) (k : Nat) : Block :=
  be64 (seqInputByte s k) (seqInputByte s (k + 1)) (seqInputByte s (k + 2)) (seqInputByte s (k + 3))
    (seqInputByte s (k + 4)) (seqInputByte s (k + 5)) (seqInputByte s (k + 6)) (seqInputByte s (k + 7))

/-- Input block `BLK`: `DIN` for the block commands; for `CBC_DEC` the IV block is skipped (R187). -/
def seqInput (i : Instr) (s : State) : Block :=
  match i with
  | .encBlk => blockOperand s
  | .decBlk => blockOperand s
  | .ecbEnc => seqInputAt s (8 * s.eng.blk.toNat)
  | .ecbDec => seqInputAt s (8 * s.eng.blk.toNat)
  | .cbcEnc => seqInputAt s (8 * s.eng.blk.toNat)
  | .cbcDec => seqInputAt s (8 * (s.eng.blk.toNat + 1))

/-- `SUM` at the start of a block: 0 to encrypt, `mul32(DELTA, rounds)` to decrypt (R187). -/
def seqSumStart (i : Instr) (s : State) : Word :=
  match i with
  | .encBlk => 0
  | .decBlk => mul32 Config.delta s.rounds
  | .ecbEnc => 0
  | .ecbDec => mul32 Config.delta 32
  | .cbcEnc => 0
  | .cbcDec => mul32 Config.delta 32

/-- `(L, R) <- split(X)`, `SUM` and `RND` at their starts. -/
def seqLoad (i : Instr) (x : Block) (s : State) : State :=
  setEngine { s.eng with l := leftHalf x, r := rightHalf x, sum := seqSumStart i s, rnd := 0 } s

/-- One round on `L`, `R`, `SUM`, and `RND` one further. -/
def seqRound (i : Instr) (s : State) : State :=
  let w : Work := { l := s.eng.l, r := s.eng.r, sum := s.eng.sum }
  let w' := if i.dir = 0 then encRound (keyOperand s) w else decRound (keyOperand s) w
  setEngine { s.eng with l := w'.l, r := w'.r, sum := w'.sum, rnd := s.eng.rnd + 1 } s

/-- `n` rounds. -/
def seqRounds (i : Instr) : Nat → State → State
  | 0, s => s
  | n + 1, s => seqRounds i n (seqRound i s)

/-- Emit `bytes8(Y)` at an index of `OBUF` (R142). -/
def seqEmit (index : Nat) (y : Block) (s : State) : State :=
  { s with obuf := Memory.writeBytes s.obuf index (bytes8 y) }

/-- The end of a block: the result `Y` goes out, `PREV` takes the block's CIPHERTEXT (R166: after `PREV` was used), and
`BLK` is one further. `x` is the input block. -/
def seqStore (i : Instr) (x : Block) (s : State) : State :=
  let y := join s.eng.l s.eng.r
  let next := { s.eng with blk := s.eng.blk + 1 }
  match i with
  | .encBlk => setEngine next (storeDout y s)
  | .decBlk => setEngine next (storeDout y s)
  | .ecbEnc => setEngine next (seqEmit (8 * s.eng.blk.toNat) y s)
  | .ecbDec => setEngine next (seqEmit (8 * s.eng.blk.toNat) y s)
  | .cbcEnc => setEngine { next with prev := y } (seqEmit (8 * s.eng.blk.toNat + 8) y s)
  | .cbcDec => setEngine { next with prev := x } (seqEmit (8 * s.eng.blk.toNat) (xor64 y s.eng.prev) s)

/-- One iteration of the loop over `BLK`: load, rounds, store; `CBC_ENC` XORs `PREV` in first. -/
def seqBlock (i : Instr) (s : State) : State :=
  let x := seqInput i s
  let loaded := seqLoad i (if i = .cbcEnc then xor64 x s.eng.prev else x) s
  seqStore i x (seqRounds i (seqRoundCount i s).toNat loaded)

/-- `n` iterations of the loop over `BLK`. -/
def seqBlocks (i : Instr) : Nat → State → State
  | 0, s => s
  | n + 1, s => seqBlocks i n (seqBlock i s)

/-- The output of the last buffer command is no longer defined (U2); what this command does not emit reads a fresh draw (U4). -/
def seqOpenOutput (s : State) : State := { s with obuf := [], obufDraw := s.draws, draws := s.draws + 1 }

/-- What comes before the loop: `BLK <- 0`; `CBC_ENC` sets `PREV` to the IV and emits it; `CBC_DEC` takes `PREV` from the
first eight input bytes if there are any. -/
def seqBegin (i : Instr) (s : State) : State :=
  let first := { s.eng with blk := 0 }
  match i with
  | .encBlk => setEngine first s
  | .decBlk => setEngine first s
  | .ecbEnc => setEngine first (seqOpenOutput s)
  | .ecbDec => setEngine first (seqOpenOutput s)
  | .cbcEnc => setEngine { first with prev := ivOperand s } (seqEmit 0 (ivOperand s) (seqOpenOutput s))
  | .cbcDec =>
    if 8 ≤ s.len.toNat then setEngine { first with prev := seqInputAt s 0 } (seqOpenOutput s)
    else setEngine first (seqOpenOutput s)

/-- `OLEN <- number of bytes emitted` (the block commands do not write it). -/
def seqFinish (i : Instr) (n : Nat) (s : State) : State :=
  match i with
  | .encBlk => complete s
  | .decBlk => complete s
  | .ecbEnc => complete { s with olen := BitVec.ofNat 32 (8 * n) }
  | .ecbDec => complete { s with olen := BitVec.ofNat 32 (8 * n) }
  | .cbcEnc => complete { s with olen := BitVec.ofNat 32 (8 * n + 8) }
  | .cbcDec => complete { s with olen := BitVec.ofNat 32 (8 * n) }

/-- The whole micro-sequence of R187 for a command. -/
def seqCommand (i : Instr) (s : State) : State :=
  seqFinish i (seqBlockCount i s) (seqBlocks i (seqBlockCount i s) (seqBegin i s))

end Sys2Proof.Machine
end

