-- ==== Sys2Proof/Safety.lean ====
section
/-! DEFINITION. The terms the claims are stated in: which START is accepted, what a command reads, and the invariant of the
machine. -/

namespace Sys2Proof.Machine

/-- The error that a START of a command raises in a state, if any (R185). -/
def startError (i : Instr) (s : State) : Option ErrorCode :=
  match i with
  | .encBlk => checkNothing s
  | .decBlk => checkNothing s
  | .ecbEnc => checkRange s
  | .ecbDec => checkRange s
  | .cbcEnc => checkRange s
  | .cbcDec => checkRangeAndRagged s

/-- The two commands on a single block (R94). -/
def isBlockCommand : Instr → Bool
  | .encBlk => true
  | .decBlk => true
  | .ecbEnc => false
  | .ecbDec => false
  | .cbcEnc => false
  | .cbcDec => false

/-- The run of one command has ended (R14). -/
def runEnded (s : State) : Bool := !s.status.busy && (s.status.done || s.status.err)

/-- R33: at most one of `BUSY`, `DONE`, `ERR` is 1; `ECODE` is not 0 exactly if `ERR` is 1; codes 4 to 15 are never produced
(R201). -/
def StatusInv (t : Status) : Prop :=
  ¬(t.busy = true ∧ t.done = true) ∧ ¬(t.busy = true ∧ t.err = true) ∧ ¬(t.done = true ∧ t.err = true) ∧
    (t.err = true ↔ t.ecode ≠ 0) ∧ t.ecode.toNat ≤ 3

/-- While `BUSY = 1`, `OP` holds a command that START accepted and would still accept (R37, R185, R214). -/
def RunningInv (s : State) : Prop :=
  s.status.busy = true → ∃ i, decodeOpcode s.eng.op = .command i ∧ startError i s = none

/-- The buffers: canonical form, no byte listed outside `IBUF`, and the listed bytes of `OBUF` are exactly the output of the
last completed buffer command, which fits `OBUF` (R40, R41, R67). -/
def BuffersInv (s : State) : Prop :=
  s.ibuf.wf = true ∧ s.obuf.wf = true ∧ (∀ a, (s.ibuf.get? a).isSome = true → a < Space.size s.params .ibuf) ∧
    (∀ a, (s.obuf.get? a).isSome = true ↔ a < s.olen.toNat) ∧ s.olen.toNat < Space.size s.params .obuf

/-- The invariant of the machine. -/
def Inv (s : State) : Prop := StatusInv s.status ∧ RunningInv s ∧ BuffersInv s

/-- The two states hold the same operands of a command: the "r" rows of R45. -/
def SameOperands (i : Instr) (s t : State) : Prop :=
  keyOperand s = keyOperand t ∧
    match i with
    | .encBlk => blockOperand s = blockOperand t ∧ s.rounds = t.rounds
    | .decBlk => blockOperand s = blockOperand t ∧ s.rounds = t.rounds
    | .ecbEnc => s.len = t.len ∧ ∀ k, k < s.len.toNat → readIbuf s k = readIbuf t k
    | .ecbDec => s.len = t.len ∧ ∀ k, k < s.len.toNat → readIbuf s k = readIbuf t k
    | .cbcEnc => ivOperand s = ivOperand t ∧ s.len = t.len ∧ ∀ k, k < s.len.toNat → readIbuf s k = readIbuf t k
    | .cbcDec => s.len = t.len ∧ ∀ k, k < s.len.toNat → readIbuf s k = readIbuf t k

/-- The two states show the host the same result of a command (R35). -/
def SameResult (i : Instr) (s t : State) : Prop :=
  match isBlockCommand i with
  | true => s.doutHi = t.doutHi ∧ s.doutLo = t.doutLo
  | false => s.olen = t.olen ∧ ∀ a, a < s.olen.toNat → readObuf s a = readObuf t a

/-- It is the host's turn and its next access is `a`, with `rest` to follow: the engine idles, or its completion is not yet
due and the host does not wait for it. -/
def HostMoves (s : State) (a : Access) (rest : List Access) : Prop :=
  s.host = a :: rest ∧ (s.status.busy = false ∨ (0 < s.due ∧ a ≠ .wait))

/-- It is the engine's turn: `BUSY = 1`, and the completion is due, or the host makes no access before it. -/
def EngineMoves (s : State) : Prop :=
  s.status.busy = true ∧ (s.host = [] ∨ s.due = 0 ∨ ∃ rest, s.host = .wait :: rest)

/-- `STATUS` after a rejected START (R206). -/
def rejectedStatus (t : Status) (code : BitVec 4) : Status :=
  { busy := false, done := false, err := true, hzd := t.hzd, ecode := code }

/-- `STATUS` after an accepted START (R185). -/
def startedStatus (t : Status) : Status := { busy := true, done := false, err := false, hzd := t.hzd, ecode := 0 }

/-- `STATUS` after a completion (R186). -/
def completedStatus (t : Status) : Status := { t with busy := false, done := true }

end Sys2Proof.Machine
end

