-- ==== Sys2Proof/Certificates/Slice0/Obligations.lean ====
section
/-! DEFINITION. The statements for the provers. -/

open Sys2Proof Sys2Proof.Machine

/-! ### The block cipher engine -/

/-- R110 to R114: the primitives are arithmetic on the unsigned values modulo `2^32`, subtraction undoes addition, and the
exclusive or is bitwise, associative and commutative. -/
def Obligations.PrimitivesAreUnsignedArithmetic : Prop :=
  ∀ a b c : Word,
    (add32 a b).toNat = (a.toNat + b.toNat) % 2 ^ 32 ∧
    (sub32 a b).toNat = (a.toNat + 2 ^ 32 - b.toNat) % 2 ^ 32 ∧
    sub32 (add32 a b) b = a ∧ add32 (sub32 a b) b = a ∧
    (shl4 a).toNat = a.toNat * 16 % 2 ^ 32 ∧
    (shr5 a).toNat = a.toNat / 32 ∧
    (∀ i, (xor32 a b).getLsbD i = (a.getLsbD i ^^ b.getLsbD i)) ∧
    xor32 (xor32 a b) c = xor32 a (xor32 b c) ∧ xor32 a b = xor32 b a

/-- R115: `mul32(a, n)` is the product modulo `2^32`, and it is `n` additions of `a` starting from 0. -/
def Obligations.ProductIsRepeatedAddition : Prop :=
  (∀ a b : Word, (mul32 a b).toNat = a.toNat * b.toNat % 2 ^ 32) ∧
  ∀ (a : Word) (n : Nat), mul32 a (BitVec.ofNat 32 n) = (fun x => add32 x a)^[n] 0

/-- R118, R119, R127 (a): split is quotient and remainder by `2^32`, join is its inverse on both sides, and so with 0 rounds
both block functions return the block. -/
def Obligations.SplitAndJoinAreInverse : Prop :=
  (∀ b : Block, (leftHalf b).toNat = b.toNat / 2 ^ 32 ∧ (rightHalf b).toNat = b.toNat % 2 ^ 32 ∧
    join (leftHalf b) (rightHalf b) = b ∧ ∀ k : Key, encryptBlock b k 0 = b ∧ decryptBlock b k 0 = b) ∧
  ∀ l r : Word, (join l r).toNat = l.toNat * 2 ^ 32 + r.toNat ∧ leftHalf (join l r) = l ∧ rightHalf (join l r) = r

/-- R124: reducing only the outer sums of a round, with unbounded integers inside, gives the same `sum`, `left` and `right`
as the round that reduces every intermediate. -/
def Obligations.PlaceOfReductionIsImmaterial : Prop :=
  ∀ (k : Key) (w : Work),
    (encRound k w).sum = BitVec.ofNat 32 (w.sum.toNat + Config.delta.toNat) ∧
    (encRound k w).l = BitVec.ofNat 32 (w.l.toNat +
      (((w.r.toNat <<< 4) + k.k0.toNat) ^^^ (w.r.toNat + (encRound k w).sum.toNat) ^^^ ((w.r.toNat >>> 5) + k.k1.toNat))) ∧
    (encRound k w).r = BitVec.ofNat 32 (w.r.toNat +
      ((((encRound k w).l.toNat <<< 4) + k.k2.toNat) ^^^ ((encRound k w).l.toNat + (encRound k w).sum.toNat) ^^^
        (((encRound k w).l.toNat >>> 5) + k.k3.toNat)))

/-- R129: the sum schedule: after `j` encryption rounds `SUM` is `mul32(DELTA, j)`; after `j` of `n` decryption rounds it is
`mul32(DELTA, n - j)`, so it ends at 0. -/
def Obligations.SumSchedule : Prop :=
  ∀ (k : Key) (b : Block) (n j : Nat), j ≤ n →
    (encRounds k j (encStart b)).sum = mul32 Config.delta (BitVec.ofNat 32 j) ∧
    (decRounds k j (decStart b n)).sum = mul32 Config.delta (BitVec.ofNat 32 (n - j)) ∧
    (decRounds k n (decStart b n)).sum = 0

/-- R126: each block function is the inverse of the other, for every key and every number of rounds. -/
def Obligations.BlockFunctionsAreInverse : Prop :=
  ∀ (b : Block) (k : Key) (rounds : Nat),
    decryptBlock (encryptBlock b k rounds) k rounds = b ∧ encryptBlock (decryptBlock b k rounds) k rounds = b

/-! ### Bytes, padding and the modes -/

/-- R60 to R62: the byte at the lowest index is the most significant, the first four bytes are `left`, and the two
conversions are inverse. -/
def Obligations.ByteOrderIsBigEndian : Prop :=
  (∀ a b c d e f g h : Byte,
    (be64 a b c d e f g h).toNat =
      a.toNat * 2 ^ 56 + b.toNat * 2 ^ 48 + c.toNat * 2 ^ 40 + d.toNat * 2 ^ 32 +
        e.toNat * 2 ^ 24 + f.toNat * 2 ^ 16 + g.toNat * 2 ^ 8 + h.toNat ∧
    (leftHalf (be64 a b c d e f g h)).toNat =
      a.toNat * 2 ^ 24 + b.toNat * 2 ^ 16 + c.toNat * 2 ^ 8 + d.toNat ∧
    (rightHalf (be64 a b c d e f g h)).toNat =
      e.toNat * 2 ^ 24 + f.toNat * 2 ^ 16 + g.toNat * 2 ^ 8 + h.toNat ∧
    bytes8 (be64 a b c d e f g h) = [a, b, c, d, e, f, g, h]) ∧
  ∀ v : Block, blocksOf (bytes8 v) = [v] ∧ (bytes8 v).length = 8 ∧
    ∀ i, i < 8 → ((bytes8 v)[i]?).map BitVec.toNat = some (v.toNat / 2 ^ (56 - 8 * i) % 256)

/-- R143, R160: the two padding rules: zeros only, 1 to 8 of them for ECB, 0 to 7 for CBC, and the padded lengths. -/
def Obligations.PaddingRules : Prop :=
  ∀ d : List Byte,
    (∃ m, 1 ≤ m ∧ m ≤ 8 ∧ m = 8 - d.length % 8 ∧ padEcb d = d ++ List.replicate m 0) ∧
    (padEcb d).length = 8 * (d.length / 8 + 1) ∧
    (∃ m, m ≤ 7 ∧ m = (8 - d.length % 8) % 8 ∧ padCbc d = d ++ List.replicate m 0) ∧
    (padCbc d).length = 8 * ((d.length + 7) / 8) ∧
    (8 ∣ d.length → padCbc d = d)

/-- R148, R167: the lengths of the mode functions' results. -/
def Obligations.ModeOutputLengths : Prop :=
  ∀ (d : List Byte) (k : Key) (dir : Direction) (iv : Block),
    (ecbTransform d k dir).length = 8 * (d.length / 8 + 1) ∧
    d.length < (ecbTransform d k dir).length ∧ (ecbTransform d k dir).length ≤ d.length + 8 ∧
    (cbcEncrypt d k iv).length = 8 + 8 * ((d.length + 7) / 8) ∧
    8 ≤ (cbcEncrypt d k iv).length ∧ (cbcEncrypt d k iv).length ≤ d.length + 15 ∧
    (8 ∣ d.length → (cbcDecrypt d k).length = d.length - 8)

/-- R149: output block `j` depends only on input block `j` and the key, and distinct input blocks give distinct output
blocks. -/
def Obligations.EcbBlocksAreIndependent : Prop :=
  ∀ (k : Key) (dir : Direction),
    (∀ d : List Byte, blocksOf (ecbTransform d k dir) = (blocksOf (padEcb d)).map (blockFunction dir k)) ∧
    ∀ x y : Block, blockFunction dir k x = blockFunction dir k y → x = y

/-- R150: the ECB round trip, with the junk block of the second padding. -/
def Obligations.EcbRoundTrip : Prop :=
  ∀ (d : List Byte) (k : Key),
    ecbTransform (ecbTransform d k .encrypt) k .decrypt = padEcb d ++ bytes8 (decryptBlock 0 k 32)

/-- R165: the CBC round trip. -/
def Obligations.CbcRoundTrip : Prop :=
  ∀ (d : List Byte) (k : Key) (iv : Block), cbcDecrypt (cbcEncrypt d k iv) k = padCbc d

/-- R161, R162, R166: the chaining value is the IV first and then always the previous ciphertext block; the XOR comes before
the encryption and after the decryption. (Decryption for a length that is a multiple of 8: R162 defines no other.) -/
def Obligations.ChainingValueIsPreviousCiphertext : Prop :=
  ∀ (k : Key) (iv : Block) (d : List Byte),
    (∃ cs : List Block, cbcEncrypt d k iv = bytesOf (iv :: cs) ∧ cs.length = (blocksOf (padCbc d)).length ∧
      ∀ (i : Nat) (p : Block), (blocksOf (padCbc d))[i]? = some p →
        ∃ prev c : Block, (iv :: cs)[i]? = some prev ∧ cs[i]? = some c ∧ c = encryptBlock (xor64 p prev) k 32) ∧
    ∀ cs : List Block, 8 ∣ d.length → blocksOf d = iv :: cs →
      ∃ ps : List Block, cbcDecrypt d k = bytesOf ps ∧ ps.length = cs.length ∧
        ∀ (i : Nat) (c : Block), cs[i]? = some c →
          ∃ prev p : Block, (iv :: cs)[i]? = some prev ∧ ps[i]? = some p ∧ p = xor64 (decryptBlock c k 32) prev

/-- R169: a change to one ciphertext block changes the plaintext block at that place and the next, which changes by exactly the
difference, and no other; a change to the IV block changes the first plaintext block, by exactly the difference, and no
other. -/
def Obligations.CbcDecryptDependsOnTwoBlocks : Prop :=
  ∀ (k : Key) (pre post : List Block) (c c' : Block) (iv : Block),
    (c ≠ c' → ∃ p p', (cbcDecryptBlocks k iv (pre ++ c :: post))[pre.length]? = some p ∧
      (cbcDecryptBlocks k iv (pre ++ c' :: post))[pre.length]? = some p' ∧ p ≠ p') ∧
    (cbcDecryptBlocks k iv (pre ++ c :: post)).take pre.length =
      (cbcDecryptBlocks k iv (pre ++ c' :: post)).take pre.length ∧
    (cbcDecryptBlocks k iv (pre ++ c :: post)).drop (pre.length + 2) =
      (cbcDecryptBlocks k iv (pre ++ c' :: post)).drop (pre.length + 2) ∧
    (∀ p p', (cbcDecryptBlocks k iv (pre ++ c :: post))[pre.length + 1]? = some p →
      (cbcDecryptBlocks k iv (pre ++ c' :: post))[pre.length + 1]? = some p' → xor64 p p' = xor64 c c') ∧
    (cbcDecryptBlocks k c post).drop 1 = (cbcDecryptBlocks k c' post).drop 1 ∧
    ∀ p p', (cbcDecryptBlocks k c post)[0]? = some p → (cbcDecryptBlocks k c' post)[0]? = some p' →
      xor64 p p' = xor64 c c'

/-- R151, R170: empty and short inputs: ECB gives one block for none and two for eight bytes; CBC encryption of nothing is
the IV; CBC decryption of nothing, and of the IV alone, is empty. -/
def Obligations.EmptyAndShortInputs : Prop :=
  ∀ (k : Key) (dir : Direction) (iv : Block),
    ecbTransform [] k dir = bytes8 (blockFunction dir k 0) ∧
    (∀ d : List Byte, d.length = 8 → (blocksOf (ecbTransform d k dir)).length = 2) ∧
    cbcEncrypt [] k iv = bytes8 iv ∧ cbcDecrypt [] k = [] ∧
    ∀ d : List Byte, d.length = 8 → cbcDecrypt d k = []

/-- R168: with IV 0 the first ciphertext block is the ECB encryption of the first plaintext block. -/
def Obligations.ZeroIvGivesTheEcbBlock : Prop :=
  ∀ (d : List Byte) (k : Key), d ≠ [] →
    ∃ p : Block, (blocksOf (padEcb d))[0]? = some p ∧
      (blocksOf (ecbTransform d k .encrypt))[0]? = some (encryptBlock p k 32) ∧
      (blocksOf (cbcEncrypt d k 0))[1]? = some (encryptBlock p k 32)

/-! ### Encoding -/

/-- R90, R92, R97: the words of the six commands, written out, and what the decoder reads from them. -/
def Obligations.CommandWordsDecode : Prop :=
  decode 0x00000000 = .command .encBlk ∧ decode 0x00000001 = .command .decBlk ∧
  decode 0x00000002 = .command .ecbEnc ∧ decode 0x00000003 = .command .ecbDec ∧
  decode 0x00000004 = .command .cbcEnc ∧ decode 0x00000005 = .command .cbcDec ∧
  decode 0x00000006 = .illegal .reservedMode ∧ decode 0x00000007 = .illegal .reservedMode ∧
  decode 0x00000008 = .illegal .reservedBits ∧ decode 0x80000002 = .illegal .reservedBits

/-- R97: the decoder is total: each of the words 0 to 5 selects its command, the words 6 and 7 are illegal because `MODE = 3`,
every other word because a bit of `RSV` is set; and the encoder is the inverse on the six commands. -/
def Obligations.DecoderSelectsExactlySixWords : Prop :=
  ∀ w : Word,
    (decode w = .command .encBlk ↔ w.toNat = 0) ∧ (decode w = .command .decBlk ↔ w.toNat = 1) ∧
    (decode w = .command .ecbEnc ↔ w.toNat = 2) ∧ (decode w = .command .ecbDec ↔ w.toNat = 3) ∧
    (decode w = .command .cbcEnc ↔ w.toNat = 4) ∧ (decode w = .command .cbcDec ↔ w.toNat = 5) ∧
    (decode w = .illegal .reservedMode ↔ w.toNat = 6 ∨ w.toNat = 7) ∧
    (decode w = .illegal .reservedBits ↔ 8 ≤ w.toNat) ∧
    ∀ i, decode w = .command i ↔ w = encode i

/-- R90, R97: decoding an encoded command gives it back, its word is `MODE * 2 + DIR`, and distinct commands have distinct
words. -/
def Obligations.DecodeOfEncode : Prop :=
  ∀ i : Instr, decode (encode i) = .command i ∧
    (encode i).toNat = i.mode.toNat * 2 + i.dir.toNat ∧ decodeOpcode i.opcode = .command i ∧
    decodeTableWord 32 (encode i).toNat = some i ∧ ∀ j : Instr, encode i = encode j → i = j

/-! ### START -/

/-- R185: an accepted START: `DONE`, `ERR`, `ECODE` cleared, `OP` latched, `BUSY` set, and nothing else of the block
changed. (The draw of the completion's time is the model's own, log 3.) -/
def Obligations.AcceptedStart : Prop :=
  ∀ (i : Instr) (s : State), s.status.busy = false → startError i s = none →
    ∃ t, exec i s = .next t ∧ t.status = startedStatus s.status ∧ t.eng = { s.eng with op := i.opcode } ∧
      { t with status := s.status, eng := s.eng, due := s.due, draws := s.draws } = s

/-- R206: a rejected START: `ERR`, `ECODE` set, `DONE` cleared, `BUSY` still 0, `HZD` and everything else unchanged. -/
def Obligations.RejectedStart : Prop :=
  ∀ (i : Instr) (s : State) (e : ErrorCode), s.status.busy = false → startError i s = some e →
    exec i s = .next { s with status := rejectedStatus s.status (errorNumber e) }

/-- R203, R208: `LEN > MAXLEN` rejects the four buffer commands with `LEN_RANGE`, also where `LEN` is ragged, and never
rejects a block command. -/
def Obligations.LenRangeRejectsBufferCommands : Prop :=
  ∀ (i : Instr) (s : State), s.status.busy = false → s.params.maxlen.val < s.len.toNat →
    (isBlockCommand i = false → exec i s = .next { s with status := rejectedStatus s.status 2 }) ∧
    (isBlockCommand i = true → ∃ t, exec i s = .next t ∧ t.status = startedStatus s.status)

/-- R204: with `LEN` in range, a ragged `LEN` rejects `CBC_DEC` with `LEN_RAGGED`; every other command, and `CBC_DEC` with a
`LEN` that is a multiple of 8, 0 among them, is accepted. -/
def Obligations.RaggedLenRejectsOnlyCbcDec : Prop :=
  ∀ (i : Instr) (s : State), s.status.busy = false → s.len.toNat ≤ s.params.maxlen.val →
    (i = .cbcDec ∧ s.len.toNat % 8 ≠ 0 → exec i s = .next { s with status := rejectedStatus s.status 3 }) ∧
    (i ≠ .cbcDec ∨ s.len.toNat % 8 = 0 → ∃ t, exec i s = .next t ∧ t.status = startedStatus s.status)

/-- R185, R203, R204: with `LEN` in range and a multiple of 8 every command is accepted. -/
def Obligations.WholeBlocksInRangeStartEveryCommand : Prop :=
  ∀ (i : Instr) (s : State), s.status.busy = false → s.len.toNat ≤ s.params.maxlen.val → s.len.toNat % 8 = 0 →
    ∃ t, exec i s = .next t ∧ t.status = startedStatus s.status ∧ t.eng.op = i.opcode

/-- R202, R206: a write of an illegal word to `CMD` while idle raises `BAD_OP`, whatever the registers hold, and changes
nothing else (the host's list moves on). -/
def Obligations.IllegalWordRaisesBadOp : Prop :=
  ∀ (s : State) (w : Word) (rest : List Access), s.status.busy = false → s.host = .wr 0x00 w :: rest → 6 ≤ w.toNat →
    ∃ t, step s = .next t ∧ t.status = rejectedStatus s.status 1 ∧ t.host = rest ∧
      { t with status := s.status, host := s.host, due := s.due } = s

/-! ### Completion -/

/-- R122: the word of `ENC_BLK`; its START is accepted whatever the registers hold; and it completes with `DOUT` the encryption
of `DIN` under `KEY` for `ROUNDS` rounds: besides `DOUT`, the two flags and the hidden registers nothing changes. -/
def Obligations.EncBlkResult : Prop :=
  ∀ s : State, encode .encBlk = 0x00000000 ∧
    (s.status.busy = false → ∃ t, exec .encBlk s = .next t ∧ t.status = startedStatus s.status) ∧
    (s.status.busy = true →
      ∃ t, exec .encBlk s = .next t ∧
        join t.doutHi t.doutLo =
          encryptBlock (join s.dinHi s.dinLo) ⟨s.key0, s.key1, s.key2, s.key3⟩ s.rounds.toNat ∧
        t.status = completedStatus s.status ∧
        { t with doutHi := s.doutHi, doutLo := s.doutLo, status := s.status, eng := s.eng } = s)

/-- R123: `DEC_BLK`, as `ENC_BLK` with the decryption. -/
def Obligations.DecBlkResult : Prop :=
  ∀ s : State, encode .decBlk = 0x00000001 ∧
    (s.status.busy = false → ∃ t, exec .decBlk s = .next t ∧ t.status = startedStatus s.status) ∧
    (s.status.busy = true →
      ∃ t, exec .decBlk s = .next t ∧
        join t.doutHi t.doutLo =
          decryptBlock (join s.dinHi s.dinLo) ⟨s.key0, s.key1, s.key2, s.key3⟩ s.rounds.toNat ∧
        t.status = completedStatus s.status ∧
        { t with doutHi := s.doutHi, doutLo := s.doutLo, status := s.status, eng := s.eng } = s)

/-- R146, R147, R145: the words of `ECB_ENC` and `ECB_DEC`; a START with `LEN > MAXLEN` raises `LEN_RANGE` and any other is
accepted; and they complete with `OLEN` and `OBUF[0..OLEN)` the ECB transform of `IBUF[0..LEN)` in their direction, both with
the same padding and 32 rounds: besides these, the two flags and the hidden registers nothing changes (`obufDraw` and `draws`
are the model's account of the bytes beyond `OLEN`, which are unspecified, U4). -/
def Obligations.EcbResults : Prop :=
  encode .ecbEnc = 0x00000002 ∧ encode .ecbDec = 0x00000003 ∧
  ∀ (s : State) (i : Instr) (dir : Direction), (i = .ecbEnc ∧ dir = .encrypt) ∨ (i = .ecbDec ∧ dir = .decrypt) →
    (s.status.busy = false → s.params.maxlen.val < s.len.toNat →
      exec i s = .next { s with status := rejectedStatus s.status 2 }) ∧
    (s.status.busy = false → s.len.toNat ≤ s.params.maxlen.val →
      ∃ t, exec i s = .next t ∧ t.status = startedStatus s.status) ∧
    (s.status.busy = true → s.len.toNat ≤ s.params.maxlen.val →
      ∃ t out, exec i s = .next t ∧
        out = ecbTransform ((List.range s.len.toNat).map (readIbuf s)) ⟨s.key0, s.key1, s.key2, s.key3⟩ dir ∧
        t.olen.toNat = out.length ∧ t.olen.toNat = 8 * (s.len.toNat / 8 + 1) ∧
        (∀ (a : Nat) (h : a < out.length), readObuf t a = out[a]) ∧
        t.status = completedStatus s.status ∧
        { t with obuf := s.obuf, olen := s.olen, status := s.status, eng := s.eng, obufDraw := s.obufDraw, draws := s.draws } = s)

/-- R163: the word of `CBC_ENC`; a START with `LEN > MAXLEN` raises `LEN_RANGE` and any other is accepted; and it completes
with the IV and the ciphertext of `IBUF[0..LEN)`: besides `OLEN`, `OBUF`, the two flags and the hidden registers nothing
changes, `IV_HI` and `IV_LO` among what stays. -/
def Obligations.CbcEncResult : Prop :=
  ∀ s : State, encode .cbcEnc = 0x00000004 ∧
    (s.status.busy = false → s.params.maxlen.val < s.len.toNat →
      exec .cbcEnc s = .next { s with status := rejectedStatus s.status 2 }) ∧
    (s.status.busy = false → s.len.toNat ≤ s.params.maxlen.val →
      ∃ t, exec .cbcEnc s = .next t ∧ t.status = startedStatus s.status) ∧
    (s.status.busy = true → s.len.toNat ≤ s.params.maxlen.val →
      ∃ t out, exec .cbcEnc s = .next t ∧
        out = cbcEncrypt ((List.range s.len.toNat).map (readIbuf s)) ⟨s.key0, s.key1, s.key2, s.key3⟩ (join s.ivHi s.ivLo) ∧
        t.olen.toNat = out.length ∧ t.olen.toNat = 8 + 8 * ((s.len.toNat + 7) / 8) ∧
        (∀ (a : Nat) (h : a < out.length), readObuf t a = out[a]) ∧
        t.status = completedStatus s.status ∧
        { t with obuf := s.obuf, olen := s.olen, status := s.status, eng := s.eng, obufDraw := s.obufDraw, draws := s.draws } = s)

/-- R164: the word of `CBC_DEC`; a START with `LEN > MAXLEN` raises `LEN_RANGE`, else one with a ragged `LEN` raises
`LEN_RAGGED`, and any other is accepted; and it completes with the plaintext, `LEN - 8` bytes, none for `LEN` 0 or 8: besides
`OLEN`, `OBUF`, the two flags and the hidden registers nothing changes. -/
def Obligations.CbcDecResult : Prop :=
  ∀ s : State, encode .cbcDec = 0x00000005 ∧
    (s.status.busy = false → s.params.maxlen.val < s.len.toNat →
      exec .cbcDec s = .next { s with status := rejectedStatus s.status 2 }) ∧
    (s.status.busy = false → s.len.toNat ≤ s.params.maxlen.val → s.len.toNat % 8 ≠ 0 →
      exec .cbcDec s = .next { s with status := rejectedStatus s.status 3 }) ∧
    (s.status.busy = false → s.len.toNat ≤ s.params.maxlen.val → s.len.toNat % 8 = 0 →
      ∃ t, exec .cbcDec s = .next t ∧ t.status = startedStatus s.status) ∧
    (s.status.busy = true → s.len.toNat ≤ s.params.maxlen.val → s.len.toNat % 8 = 0 →
      ∃ t out, exec .cbcDec s = .next t ∧
        out = cbcDecrypt ((List.range s.len.toNat).map (readIbuf s)) ⟨s.key0, s.key1, s.key2, s.key3⟩ ∧
        t.olen.toNat = out.length ∧ t.olen.toNat = s.len.toNat - 8 ∧
        (∀ (a : Nat) (h : a < out.length), readObuf t a = out[a]) ∧
        t.status = completedStatus s.status ∧
        { t with obuf := s.obuf, olen := s.olen, status := s.status, eng := s.eng, obufDraw := s.obufDraw, draws := s.draws } = s)

/-- R41, U4: after a completed buffer command no byte at or beyond `OLEN` holds an output: it reads the free value of this
command's own draw. -/
def Obligations.OutputTailIsUnspecified : Prop :=
  ∀ (i : Instr) (s t : State), isBlockCommand i = false → s.status.busy = true → exec i s = .next t →
    ∀ a, t.olen.toNat ≤ a → readObuf t a = Config.freeObuf s.draws a

/-- R21 to R26, R40: no command, started, rejected or completed, writes an input: key, IV, `DIN`, `ROUNDS`, `LEN`, any byte
of `IBUF`, or the configuration. -/
def Obligations.CommandsNeverWriteTheirInputs : Prop :=
  ∀ (i : Instr) (s t : State), exec i s = .next t →
    t.key0 = s.key0 ∧ t.key1 = s.key1 ∧ t.key2 = s.key2 ∧ t.key3 = s.key3 ∧ t.ivHi = s.ivHi ∧ t.ivLo = s.ivLo ∧
    t.dinHi = s.dinHi ∧ t.dinLo = s.dinLo ∧ t.rounds = s.rounds ∧ t.len = s.len ∧ t.params = s.params ∧
    t.ibuf = s.ibuf ∧ (∀ a, readIbuf t a = readIbuf s a) ∧ t.status.hzd = s.status.hzd

/-- R24, R27, R41: the buffer commands leave `DOUT` unchanged, the block commands `OLEN` and every byte of `OBUF`. -/
def Obligations.CommandsKeepTheOthersOutputs : Prop :=
  ∀ (i : Instr) (s t : State), exec i s = .next t →
    (isBlockCommand i = false → t.doutHi = s.doutHi ∧ t.doutLo = s.doutLo) ∧
    (isBlockCommand i = true → t.olen = s.olen ∧ ∀ a, readObuf t a = readObuf s a)

/-- R43, R45: the result of a command is a function of the operands that R45 lists for it at its START and of nothing else:
not of the hidden registers, and not of an earlier command. -/
def Obligations.ResultDependsOnlyOnOperands : Prop :=
  ∀ (i : Instr) (s₁ s₂ t₁ t₂ : State), s₁.status.busy = true → s₂.status.busy = true → SameOperands i s₁ s₂ →
    exec i s₁ = .next t₁ → exec i s₂ = .next t₂ → SameResult i t₁ t₂

/-- R187: the micro-sequence over the hidden registers gives the state that the one completion step of R186 gives. R187 says so
of the result; that the two agree on the whole state is the model's: what the hidden registers hold after a completion is log
7's (DEDUCED), the draw of the bytes beyond `OLEN` is log 8's (DESIGN CHOICE). -/
def Obligations.MicroSequenceEqualsCompletion : Prop :=
  ∀ (i : Instr) (s : State), s.status.busy = true → startError i s = none → exec i s = .next (seqCommand i s)

/-! ### The two agents -/

/-- R186: in the engine's turn a step runs the command latched in `OP`, and is nothing but that. -/
def Obligations.EngineStepRunsLatchedCommand : Prop :=
  ∀ (s : State) (i : Instr), EngineMoves s → decodeOpcode s.eng.op = .command i → step s = exec i s

/-- R182, R185: the host's write of a legal word to `CMD` while idle runs the decoded command, on the state in which the
host's list has moved on. -/
def Obligations.CommandWriteRunsDecodedCommand : Prop :=
  ∀ (s : State) (i : Instr) (w : Word) (rest : List Access),
    s.status.busy = false → s.host = .wr 0x00 w :: rest → decode w = .command i →
    step s = exec i { s with host := rest, due := s.due - 1 }

/-- The placing of a command for the next step (the model's own, log 2): the step after it is that command's completion. -/
def Obligations.PlacedCommandRunsNext : Prop :=
  ∀ (s : State) (i : Instr),
    step (s.withFetchWord 32 (encode i).toNat) =
      exec i { s with status := startedStatus s.status, eng := { s.eng with op := i.opcode }, due := 0 }

/-- R220: with `BUSY = 0` and no host access the block holds its state. -/
def Obligations.IdleHoldsItsState : Prop :=
  ∀ s : State, s.status.busy = false → s.host = [] → step s = .next s

/-- R33: what a read of `STATUS` shows: bit by bit, `ECODE` in bits 7:4, and 0 above. -/
def Obligations.StatusLayout : Prop :=
  ∀ t : Status,
    (statusWord t).getLsbD 0 = t.busy ∧ (statusWord t).getLsbD 1 = t.done ∧ (statusWord t).getLsbD 2 = t.err ∧
    (statusWord t).getLsbD 3 = t.hzd ∧ (statusWord t).toNat / 16 = t.ecode.toNat

/-- R38: a host write to `STATUS`, at any time: write 1 to clear, `ECODE` with `ERR`, and nothing else changes; it never sets
`HZD`. -/
def Obligations.StatusWriteClears : Prop :=
  ∀ (s : State) (v : Word) (rest : List Access), HostMoves s (.wr 0x04 v) rest →
    ∃ t, step s = .next t ∧ t.host = rest ∧
      t.status.busy = s.status.busy ∧
      t.status.done = (s.status.done && !v.getLsbD 1) ∧
      t.status.err = (s.status.err && !v.getLsbD 2) ∧
      t.status.ecode = (if v.getLsbD 2 = true then 0 else s.status.ecode) ∧
      t.status.hzd = (s.status.hzd && !v.getLsbD 3) ∧
      { t with status := s.status, host := s.host, due := s.due } = s

/-- R37, R182, R183: a host write while `BUSY = 1`, to any register but `STATUS` or to any byte of a buffer, is discarded and
sets `HZD`; nothing else changes. -/
def Obligations.WriteWhileBusyIsDiscarded : Prop :=
  ∀ (s : State) (a : Access) (rest : List Access), s.status.busy = true → HostMoves s a rest →
    a.wellFormed s.params = true →
    ((∃ offset v, a = .wr offset v ∧ offset ≠ 0x04) ∨ ∃ space index b, a = .wrb space index b) →
    step s = .next { s with status := { s.status with hzd := true }, host := rest, due := s.due - 1 }

/-- R182: while `BUSY = 0`, a write to a read-write register stores the value there and nowhere else. -/
def Obligations.RegisterWritesStore : Prop :=
  ∀ (s : State) (v : Word) (rest : List Access), s.status.busy = false →
    (s.host = .wr 0x08 v :: rest → step s = .next { s with rounds := v, host := rest, due := s.due - 1 }) ∧
    (s.host = .wr 0x0C v :: rest → step s = .next { s with len := v, host := rest, due := s.due - 1 }) ∧
    (s.host = .wr 0x20 v :: rest → step s = .next { s with key0 := v, host := rest, due := s.due - 1 }) ∧
    (s.host = .wr 0x24 v :: rest → step s = .next { s with key1 := v, host := rest, due := s.due - 1 }) ∧
    (s.host = .wr 0x28 v :: rest → step s = .next { s with key2 := v, host := rest, due := s.due - 1 }) ∧
    (s.host = .wr 0x2C v :: rest → step s = .next { s with key3 := v, host := rest, due := s.due - 1 }) ∧
    (s.host = .wr 0x30 v :: rest → step s = .next { s with ivHi := v, host := rest, due := s.due - 1 }) ∧
    (s.host = .wr 0x34 v :: rest → step s = .next { s with ivLo := v, host := rest, due := s.due - 1 }) ∧
    (s.host = .wr 0x40 v :: rest → step s = .next { s with dinHi := v, host := rest, due := s.due - 1 }) ∧
    (s.host = .wr 0x44 v :: rest → step s = .next { s with dinLo := v, host := rest, due := s.due - 1 })

/-- R24, R27, R72, R182: while `BUSY = 0`, a write to a read-only register or to a reserved offset has no effect. -/
def Obligations.WritesToReadOnlyAreDiscarded : Prop :=
  ∀ (s : State) (offset : Nat) (v : Word) (rest : List Access), s.status.busy = false →
    s.host = .wr offset v :: rest → offset % 4 = 0 → offset < 256 →
    (offset = 0x10 ∨ offset = 0x48 ∨ offset = 0x4C ∨ (0x14 ≤ offset ∧ offset ≤ 0x1C) ∨ (0x38 ≤ offset ∧ offset ≤ 0x3C) ∨
      0x50 ≤ offset) →
    step s = .next { s with host := rest, due := s.due - 1 }

/-- R29, R181, R189: the value each register read returns. `DOUT` and `OLEN` are read only while `BUSY = 0`; `CMD` and the
reserved offsets read 0 at any time. -/
def Obligations.RegisterReadsReturnTheRegister : Prop :=
  ∀ (s : State) (offset : Nat) (rest : List Access) (v : Word), HostMoves s (.rd offset) rest →
    ((offset = 0x04 ∧ v = statusWord s.status) ∨ (offset = 0x08 ∧ v = s.rounds) ∨ (offset = 0x0C ∧ v = s.len) ∨
      (offset = 0x20 ∧ v = s.key0) ∨ (offset = 0x24 ∧ v = s.key1) ∨ (offset = 0x28 ∧ v = s.key2) ∨
      (offset = 0x2C ∧ v = s.key3) ∨ (offset = 0x30 ∧ v = s.ivHi) ∨ (offset = 0x34 ∧ v = s.ivLo) ∨
      (offset = 0x40 ∧ v = s.dinHi) ∨ (offset = 0x44 ∧ v = s.dinLo) ∨
      (s.status.busy = false ∧ offset = 0x10 ∧ v = s.olen) ∨ (s.status.busy = false ∧ offset = 0x48 ∧ v = s.doutHi) ∨
      (s.status.busy = false ∧ offset = 0x4C ∧ v = s.doutLo) ∨
      (v = 0 ∧ offset % 4 = 0 ∧ offset < 256 ∧
        (offset = 0x00 ∨ (0x14 ≤ offset ∧ offset ≤ 0x1C) ∨ (0x38 ≤ offset ∧ offset ≤ 0x3C) ∨ 0x50 ≤ offset))) →
    step s = .next { s with replies := s.replies ++ [.word offset v], host := rest, due := s.due - 1 }

/-- R66, R67, R70: a read, of any register or buffer byte, at any time, changes no state of the block: only the host's own
record, and the model's count of free values, move. -/
def Obligations.ReadsHaveNoSideEffect : Prop :=
  ∀ (s : State) (a : Access) (rest : List Access), HostMoves s a rest → a.wellFormed s.params = true →
    ((∃ offset, a = .rd offset) ∨ ∃ space index, a = .rdb space index) →
    ∃ t r, step s = .next t ∧ t.replies = s.replies ++ [r] ∧ t.host = rest ∧
      { t with replies := s.replies, host := s.host, due := s.due, draws := s.draws } = s

/-- R183, R184: while `BUSY = 0`, a byte write of `IBUF` is what the next read of that byte returns, every other byte of
`IBUF` and everything else is unchanged; a byte write of `OBUF` is discarded. -/
def Obligations.BufferByteWrites : Prop :=
  ∀ (s : State) (index : Nat) (b : Byte) (rest : List Access), s.status.busy = false →
    (index < s.params.maxlen.val → s.host = .wrb .ibuf index b :: rest →
      ∃ t, step s = .next t ∧ readIbuf t index = b ∧ (∀ a, a ≠ index → readIbuf t a = readIbuf s a) ∧ t.host = rest ∧
        { t with ibuf := s.ibuf, host := s.host, due := s.due } = s) ∧
    (index < s.params.maxlen.val + 16 → s.host = .wrb .obuf index b :: rest →
      step s = .next { s with host := rest, due := s.due - 1 })

/-- R184, R189: the value each byte read returns: `IBUF` at any time, `OBUF` while `BUSY = 0`. -/
def Obligations.BufferByteReads : Prop :=
  ∀ (s : State) (index : Nat) (rest : List Access),
    (index < s.params.maxlen.val → HostMoves s (.rdb .ibuf index) rest →
      step s = .next { s with
        replies := s.replies ++ [.byte .ibuf index (readIbuf s index)], host := rest, due := s.due - 1 }) ∧
    (index < s.params.maxlen.val + 16 → HostMoves s (.rdb .obuf index) rest → s.status.busy = false →
      step s = .next { s with
        replies := s.replies ++ [.byte .obuf index (readObuf s index)], host := rest, due := s.due - 1 })

/-- R66, R67, U6: a host access is refused exactly when the architecture does not have it: a misaligned register offset, one
beyond `0xFC`, or an index outside the buffer. -/
def Obligations.OnlyForeignAccessesAreRefused : Prop :=
  ∀ (s : State) (a : Access) (rest : List Access), HostMoves s a rest →
    ((∃ why, step s = .refused why) ↔
      ((∃ offset, (a = .rd offset ∨ ∃ v, a = .wr offset v) ∧ (offset % 4 ≠ 0 ∨ 256 ≤ offset)) ∨
        (∃ index, (a = .rdb .ibuf index ∨ ∃ b, a = .wrb .ibuf index b) ∧ s.params.maxlen.val ≤ index) ∨
        ∃ index, (a = .rdb .obuf index ∨ ∃ b, a = .wrb .obuf index b) ∧ s.params.maxlen.val + 16 ≤ index))

/-- R189, U2: while `BUSY = 1`, a read of `DOUT`, `OLEN` or a byte of `OBUF` returns a fresh free value: each read its own
draw (log 9). -/
def Obligations.OutputReadsWhileBusyAreFree : Prop :=
  ∀ (s : State) (rest : List Access), s.status.busy = true →
    (∀ offset, offset = 0x10 ∨ offset = 0x48 ∨ offset = 0x4C → HostMoves s (.rd offset) rest →
      step s = .next { s with
        replies := s.replies ++ [.word offset (Config.busyWord s.draws)], draws := s.draws + 1,
        host := rest, due := s.due - 1 }) ∧
    (∀ index, index < s.params.maxlen.val + 16 → HostMoves s (.rdb .obuf index) rest →
      step s = .next { s with
        replies := s.replies ++ [.byte .obuf index (Config.busyByte s.draws)], draws := s.draws + 1,
        host := rest, due := s.due - 1 })

/-- R100, R190: `wait` ends with the read of `STATUS` that finds `BUSY = 0`; while `BUSY = 1` the step is the engine's turn, so
the command in `OP`, where it is one that START accepts, completes, and the wait is still the host's next access (log 3). -/
def Obligations.WaitReadsStatusWhenIdle : Prop :=
  ∀ (s : State) (rest : List Access), s.host = .wait :: rest →
    (s.status.busy = false → step s = .next { s with
      replies := s.replies ++ [.word 0x04 (statusWord s.status)], host := rest, due := s.due - 1 }) ∧
    (s.status.busy = true → step s = engineTurn s ∧
      ∀ i, decodeOpcode s.eng.op = .command i → startError i s = none →
        ∃ t, step s = .next t ∧ exec i s = .next t ∧ t.status = completedStatus s.status ∧ t.host = .wait :: rest)

/-! ### Reset -/

/-- R44, R230, R232: the reset input, at any time, also while a command runs: `STATUS`, `ROUNDS`, `LEN` and `OLEN` take their
reset values and no completion follows; the host's list and record and the configuration stay. `State.reset` has the same
values. -/
def Obligations.ResetValues : Prop :=
  (∀ (s : State) (rest : List Access), HostMoves s .reset rest →
    ∃ t, step s = .next t ∧ statusWord t.status = 0 ∧ t.status.busy = false ∧ t.rounds = 0x00000020 ∧ t.len = 0 ∧
      t.olen = 0 ∧ t.host = rest ∧ t.replies = s.replies ∧ t.params = s.params) ∧
  statusWord State.reset.status = 0 ∧ State.reset.rounds = 0x00000020 ∧ State.reset.len = 0 ∧ State.reset.olen = 0

/-! ### The whole machine -/

/-- The invariant holds after reset. -/
def Obligations.InvariantHoldsAtReset : Prop := Inv State.reset

/-- Every step keeps the invariant: the status flags exclude each other and agree with `ECODE` (R33), a running command is
one that START accepted (R185), and the buffers are in canonical form with exactly the last output listed (R40, R41). No
step, from any state, changes the configuration (R8, logs 4 and 13). -/
def Obligations.EveryStepKeepsTheInvariant : Prop :=
  ∀ s t : State, step s = .next t → t.params = s.params ∧ (Inv s → Inv t)

/-- R214: from a state of the invariant no step takes either of the model's two faults (log 12). -/
def Obligations.InvariantStatesNeverFault : Prop :=
  ∀ (s : State) (f : Fault), Inv s → step s ≠ .fault f

/-- R34: `BUSY` is set only by an accepted START, and cleared only by the completion (which sets `DONE`) or by reset. -/
def Obligations.BusyChangesOnlyByStartCompletionReset : Prop :=
  ∀ s t : State, step s = .next t →
    (s.status.busy = false → t.status.busy = true →
      ∃ w rest i, s.host = .wr 0x00 w :: rest ∧ decode w = .command i ∧ startError i s = none ∧ t.eng.op = i.opcode) ∧
    (s.status.busy = true → t.status.busy = false →
      (t.status.done = true ∧ ∃ i, decodeOpcode s.eng.op = .command i ∧ exec i s = .next t) ∨
        ∃ rest, s.host = .reset :: rest)

/-- R35, R36: `DONE` is set only by a completion, and cleared only by a START (accepted or rejected), a host write of 1 to bit
1 of `STATUS`, or reset; `ERR` is set only by a rejected START, and cleared only by an accepted START, a host write of 1 to
bit 2 of `STATUS`, or reset. -/
def Obligations.DoneAndErrChangeOnlyAsStated : Prop :=
  ∀ s t : State, step s = .next t →
    (s.status.done = false → t.status.done = true →
      ∃ i, s.status.busy = true ∧ decodeOpcode s.eng.op = .command i ∧ exec i s = .next t) ∧
    (s.status.done = true → t.status.done = false → ∃ rest,
      (s.status.busy = false ∧ ∃ w, s.host = .wr 0x00 w :: rest) ∨
        (∃ v, s.host = .wr 0x04 v :: rest ∧ v.getLsbD 1 = true) ∨ s.host = .reset :: rest) ∧
    (s.status.err = false → t.status.err = true → s.status.busy = false ∧ ∃ w rest, s.host = .wr 0x00 w :: rest ∧
      ((∃ why, decode w = .illegal why) ∨ ∃ i e, decode w = .command i ∧ startError i s = some e)) ∧
    (s.status.err = true → t.status.err = false → ∃ rest,
      (s.status.busy = false ∧ ∃ w i, s.host = .wr 0x00 w :: rest ∧ decode w = .command i ∧ startError i s = none) ∨
        (∃ v, s.host = .wr 0x04 v :: rest ∧ v.getLsbD 2 = true) ∨ s.host = .reset :: rest)

/-- R37: `HZD` is set only by a host write, to a register other than `STATUS` or to a byte of a buffer, while `BUSY = 1`; and
it is sticky: only a host write of 1 to bit 3 of `STATUS`, or reset, clears it. -/
def Obligations.HazardFlagIsSticky : Prop :=
  ∀ s t : State, step s = .next t →
    (s.status.hzd = false → t.status.hzd = true → s.status.busy = true ∧ ∃ rest,
      (∃ offset v, s.host = .wr offset v :: rest ∧ offset ≠ 0x04) ∨ ∃ space index b, s.host = .wrb space index b :: rest) ∧
    (s.status.hzd = true → t.status.hzd = false → ∃ rest,
      (∃ v, s.host = .wr 0x04 v :: rest ∧ v.getLsbD 3 = true) ∨ s.host = .reset :: rest)

/-- R76 item 2, R235: while `BUSY = 1` no step but a reset changes an operand of a command. -/
def Obligations.OperandsAreFixedWhileBusy : Prop :=
  ∀ s t : State, s.status.busy = true → step s = .next t → (∀ rest, s.host ≠ .reset :: rest) →
    keyOperand t = keyOperand s ∧ ivOperand t = ivOperand s ∧ blockOperand t = blockOperand s ∧ t.rounds = s.rounds ∧
    t.len = s.len ∧ ∀ a, readIbuf t a = readIbuf s a

/-- R186, R243: every accepted command completes: from a state of the invariant with `BUSY = 1`, whatever well-formed
accesses the host makes meanwhile (but reset), after at most one step for each access that may come first and one for the
completion, `BUSY` is 0 and `DONE` is 1. -/
def Obligations.EveryAcceptedCommandCompletes : Prop :=
  ∀ s : State, Inv s → s.status.busy = true → (∀ a ∈ s.host, a.wellFormed s.params = true ∧ a ≠ .reset) →
    ∃ n t, n ≤ s.due + 1 ∧ Sys2Proof.core.run n s = .next t ∧ t.status.busy = false ∧ t.status.done = true ∧ runEnded t = true
end

