-- ==== Sys2Proof/Laws/Memory.lean ====
section
/-! SUPPORT. The laws of the buffers: a read after a write, the canonical form that every operation keeps, and that two buffers
in canonical form that read the same are the same data. -/

namespace Sys2Proof.Machine

@[simp] theorem Memory.get?_nil (a : Nat) : Memory.get? [] a = none := rfl

/-- A read of the byte just written. -/
@[simp] theorem Memory.get?_write_self (m : Memory) (a : Nat) (v : Byte) : (m.write a v).get? a = some v := by
  induction m with
  | nil => simp [Memory.write, Memory.get?]
  | cons c rest ih =>
    obtain ⟨i, b⟩ := c
    unfold Memory.write
    split
    · simp [Memory.get?]
    · split
      · simp [Memory.get?]
      · have : i ≠ a := by omega
        simp [Memory.get?, this, ih]

/-- A write leaves every other byte alone. -/
theorem Memory.get?_write_ne (m : Memory) {a k : Nat} (v : Byte) (h : k ≠ a) : (m.write a v).get? k = m.get? k := by
  induction m with
  | nil => simp [Memory.write, Memory.get?, Ne.symm h]
  | cons c rest ih =>
    obtain ⟨i, b⟩ := c
    unfold Memory.write
    split
    · simp [Memory.get?, Ne.symm h]
    · split
      · rename_i hi
        subst hi
        simp [Memory.get?, Ne.symm h]
      · simp [Memory.get?, ih]

/-- A read after a write, in one equation. -/
theorem Memory.get?_write (m : Memory) (a k : Nat) (v : Byte) :
    (m.write a v).get? k = if k = a then some v else m.get? k := by
  by_cases h : k = a
  · subst h; simp
  · simp [h, Memory.get?_write_ne m v h]

/-- A read after a write of a byte sequence. -/
theorem Memory.get?_writeBytes (m : Memory) (a k : Nat) (vs : List Byte) :
    (m.writeBytes a vs).get? k = if a ≤ k ∧ k < a + vs.length then vs[k - a]? else m.get? k := by
  induction vs generalizing m a with
  | nil =>
    have : ¬(a ≤ k ∧ k < a) := by omega
    simp [Memory.writeBytes, this]
  | cons v vs ih =>
    simp only [Memory.writeBytes, ih, Memory.get?_write, List.length_cons]
    by_cases hk : k = a
    · subst hk
      simp
    · by_cases h : a + 1 ≤ k ∧ k < a + 1 + vs.length
      · have h' : a ≤ k ∧ k < a + (vs.length + 1) := by omega
        have : k - a = (k - (a + 1)) + 1 := by omega
        simp [h, h', this]
      · have h' : ¬(a ≤ k ∧ k < a + (vs.length + 1)) := by omega
        rw [if_neg h, if_neg h', if_neg hk]

/-- Every index of a buffer in canonical form is above the bound that its first index is above. -/
theorem Memory.wf_cons {a : Nat} {v : Byte} {m : Memory} :
    Memory.wf ((a, v) :: m) = true ↔ (∀ k, (m.get? k).isSome = true → a < k) ∧ m.wf = true := by
  induction m generalizing a v with
  | nil => simp [Memory.wf]
  | cons c rest ih =>
    obtain ⟨b, w⟩ := c
    simp only [Memory.wf, Bool.and_eq_true, decide_eq_true_eq]
    constructor
    · rintro ⟨hab, hw⟩
      refine ⟨fun k hk => ?_, hw⟩
      by_cases hbk : b = k
      · omega
      · have := (ih.mp hw).1 k (by simpa [Memory.get?, hbk] using hk)
        omega
    · rintro ⟨hk, hw⟩
      exact ⟨hk b (by simp [Memory.get?]), hw⟩

/-- A write keeps the canonical form. -/
theorem Memory.write_wf {m : Memory} (a : Nat) (v : Byte) (h : m.wf = true) : (m.write a v).wf = true := by
  induction m with
  | nil => rfl
  | cons c rest ih =>
    obtain ⟨b, w⟩ := c
    have hw := Memory.wf_cons.mp h
    unfold Memory.write
    split
    · rename_i hab
      simp [Memory.wf, hab, h]
    · split
      · rename_i hab
        subst hab
        exact Memory.wf_cons.mpr hw
      · refine Memory.wf_cons.mpr ⟨fun k hk => ?_, ih hw.2⟩
        rw [Memory.get?_write] at hk
        split at hk
        · omega
        · exact hw.1 k hk

/-- A write of a byte sequence keeps the canonical form. -/
theorem Memory.writeBytes_wf {m : Memory} (a : Nat) (vs : List Byte) (h : m.wf = true) : (m.writeBytes a vs).wf = true := by
  induction vs generalizing m a with
  | nil => exact h
  | cons v vs ih => exact ih (a + 1) (Memory.write_wf a v h)

/-- Equal buffers are equal data: two in canonical form that list the same bytes are the same list. -/
theorem Memory.ext_of_get? {m n : Memory} (hm : m.wf = true) (hn : n.wf = true) (h : ∀ k, m.get? k = n.get? k) : m = n := by
  induction m generalizing n with
  | nil =>
    cases n with
    | nil => rfl
    | cons c rest =>
      obtain ⟨b, w⟩ := c
      have := h b
      simp [Memory.get?] at this
  | cons c rest ih =>
    obtain ⟨a, v⟩ := c
    cases n with
    | nil =>
      have := h a
      simp [Memory.get?] at this
    | cons d rest' =>
      obtain ⟨b, w⟩ := d
      have hm' := Memory.wf_cons.mp hm
      have hn' := Memory.wf_cons.mp hn
      have hab : a = b := by
        have ha := h a
        have hb := h b
        simp only [Memory.get?] at ha hb
        by_contra hne
        have hne' : ¬ b = a := fun e => hne e.symm
        simp only [if_true, hne', if_false] at ha
        simp only [hne, if_false, if_true] at hb
        have h1 := hn'.1 a (by simp [← ha])
        have h2 := hm'.1 b (by simp [hb])
        omega
      subst hab
      have hvw : v = w := by
        have := h a
        simpa [Memory.get?] using this
      subst hvw
      have : rest = rest' := by
        refine ih hm'.2 hn'.2 fun k => ?_
        by_cases hk : a = k
        · subst hk
          have h1 : Memory.get? rest a = none := by
            by_contra hc
            have := hm'.1 a (Option.isSome_iff_ne_none.mpr hc)
            omega
          have h2 : Memory.get? rest' a = none := by
            by_contra hc
            have := hn'.1 a (Option.isSome_iff_ne_none.mpr hc)
            omega
          rw [h1, h2]
        · have := h k
          simpa [Memory.get?, hk] using this
      rw [this]

/-- The buffers after a reset are in canonical form. -/
theorem afterReset_buffers_wf (draw : Nat) (p : Params) (host : List Access) (replies : List Reply) :
    (State.afterReset draw p host replies).ibuf.wf = true ∧ (State.afterReset draw p host replies).obuf.wf = true :=
  ⟨rfl, rfl⟩

/-- What a read of `IBUF` returns after a byte is stored. -/
theorem readIbuf_storeIbuf (s : State) (i k : Nat) (b : Byte) :
    readIbuf (storeIbuf i b s) k = if k = i then b else readIbuf s k := by
  by_cases h : k = i <;> simp [readIbuf, storeIbuf, Memory.get?_write, h]

/-- What a read of `OBUF` returns after an output is stored: the output, and beyond it the free value of this draw (U4). -/
theorem readObuf_storeOutput (s : State) (out : List Byte) (k : Nat) :
    readObuf (storeOutput out s) k = (out[k]?).getD (Config.freeObuf s.draws k) := by
  simp only [readObuf, storeOutput, Memory.get?_writeBytes, Memory.get?_nil]
  by_cases h : k < out.length
  · simp [h]
  · simp [h]

/-- `MemRead(IBUF, i, n)` has `n` bytes. -/
@[simp] theorem readIbufBytes_length (s : State) (i n : Nat) : (readIbufBytes s i n).length = n := by
  induction n generalizing i with
  | zero => rfl
  | succ n ih => simp [readIbufBytes, ih]

/-- `MemRead(IBUF, i, n)` is the bytes at `i` to `i + n - 1` in order. -/
theorem readIbufBytes_eq (s : State) (i n : Nat) : readIbufBytes s i n = (List.range n).map fun k => readIbuf s (i + k) := by
  induction n generalizing i with
  | zero => rfl
  | succ n ih =>
    rw [List.range_succ_eq_map]
    simp only [readIbufBytes, ih, List.map_cons, List.map_map, Nat.add_zero]
    congr 1
    apply List.map_congr_left
    intro k _
    simp only [Function.comp, Nat.succ_eq_add_one]
    congr 1
    omega

end Sys2Proof.Machine
end

