-- ==== Sys2Proof/Laws/State.lean ====
section
/-! SUPPORT. One lemma per field per named update of the state, each true by rfl, so that no proof unfolds a record update. -/

namespace Sys2Proof.Machine

/-! ### setStatus -/

@[simp] theorem setStatus_params (t : Status) (s : State) : (setStatus t s).params = s.params := rfl
@[simp] theorem setStatus_key0 (t : Status) (s : State) : (setStatus t s).key0 = s.key0 := rfl
@[simp] theorem setStatus_key1 (t : Status) (s : State) : (setStatus t s).key1 = s.key1 := rfl
@[simp] theorem setStatus_key2 (t : Status) (s : State) : (setStatus t s).key2 = s.key2 := rfl
@[simp] theorem setStatus_key3 (t : Status) (s : State) : (setStatus t s).key3 = s.key3 := rfl
@[simp] theorem setStatus_ivHi (t : Status) (s : State) : (setStatus t s).ivHi = s.ivHi := rfl
@[simp] theorem setStatus_ivLo (t : Status) (s : State) : (setStatus t s).ivLo = s.ivLo := rfl
@[simp] theorem setStatus_dinHi (t : Status) (s : State) : (setStatus t s).dinHi = s.dinHi := rfl
@[simp] theorem setStatus_dinLo (t : Status) (s : State) : (setStatus t s).dinLo = s.dinLo := rfl
@[simp] theorem setStatus_doutHi (t : Status) (s : State) : (setStatus t s).doutHi = s.doutHi := rfl
@[simp] theorem setStatus_doutLo (t : Status) (s : State) : (setStatus t s).doutLo = s.doutLo := rfl
@[simp] theorem setStatus_rounds (t : Status) (s : State) : (setStatus t s).rounds = s.rounds := rfl
@[simp] theorem setStatus_len (t : Status) (s : State) : (setStatus t s).len = s.len := rfl
@[simp] theorem setStatus_olen (t : Status) (s : State) : (setStatus t s).olen = s.olen := rfl
@[simp] theorem setStatus_status (t : Status) (s : State) : (setStatus t s).status = t := rfl
@[simp] theorem setStatus_ibuf (t : Status) (s : State) : (setStatus t s).ibuf = s.ibuf := rfl
@[simp] theorem setStatus_obuf (t : Status) (s : State) : (setStatus t s).obuf = s.obuf := rfl
@[simp] theorem setStatus_eng (t : Status) (s : State) : (setStatus t s).eng = s.eng := rfl
@[simp] theorem setStatus_host (t : Status) (s : State) : (setStatus t s).host = s.host := rfl
@[simp] theorem setStatus_replies (t : Status) (s : State) : (setStatus t s).replies = s.replies := rfl
@[simp] theorem setStatus_due (t : Status) (s : State) : (setStatus t s).due = s.due := rfl
@[simp] theorem setStatus_draws (t : Status) (s : State) : (setStatus t s).draws = s.draws := rfl
@[simp] theorem setStatus_ibufDraw (t : Status) (s : State) : (setStatus t s).ibufDraw = s.ibufDraw := rfl
@[simp] theorem setStatus_obufDraw (t : Status) (s : State) : (setStatus t s).obufDraw = s.obufDraw := rfl

/-! ### setEngine -/

@[simp] theorem setEngine_params (e : EngineRegs) (s : State) : (setEngine e s).params = s.params := rfl
@[simp] theorem setEngine_key0 (e : EngineRegs) (s : State) : (setEngine e s).key0 = s.key0 := rfl
@[simp] theorem setEngine_key1 (e : EngineRegs) (s : State) : (setEngine e s).key1 = s.key1 := rfl
@[simp] theorem setEngine_key2 (e : EngineRegs) (s : State) : (setEngine e s).key2 = s.key2 := rfl
@[simp] theorem setEngine_key3 (e : EngineRegs) (s : State) : (setEngine e s).key3 = s.key3 := rfl
@[simp] theorem setEngine_ivHi (e : EngineRegs) (s : State) : (setEngine e s).ivHi = s.ivHi := rfl
@[simp] theorem setEngine_ivLo (e : EngineRegs) (s : State) : (setEngine e s).ivLo = s.ivLo := rfl
@[simp] theorem setEngine_dinHi (e : EngineRegs) (s : State) : (setEngine e s).dinHi = s.dinHi := rfl
@[simp] theorem setEngine_dinLo (e : EngineRegs) (s : State) : (setEngine e s).dinLo = s.dinLo := rfl
@[simp] theorem setEngine_doutHi (e : EngineRegs) (s : State) : (setEngine e s).doutHi = s.doutHi := rfl
@[simp] theorem setEngine_doutLo (e : EngineRegs) (s : State) : (setEngine e s).doutLo = s.doutLo := rfl
@[simp] theorem setEngine_rounds (e : EngineRegs) (s : State) : (setEngine e s).rounds = s.rounds := rfl
@[simp] theorem setEngine_len (e : EngineRegs) (s : State) : (setEngine e s).len = s.len := rfl
@[simp] theorem setEngine_olen (e : EngineRegs) (s : State) : (setEngine e s).olen = s.olen := rfl
@[simp] theorem setEngine_status (e : EngineRegs) (s : State) : (setEngine e s).status = s.status := rfl
@[simp] theorem setEngine_ibuf (e : EngineRegs) (s : State) : (setEngine e s).ibuf = s.ibuf := rfl
@[simp] theorem setEngine_obuf (e : EngineRegs) (s : State) : (setEngine e s).obuf = s.obuf := rfl
@[simp] theorem setEngine_eng (e : EngineRegs) (s : State) : (setEngine e s).eng = e := rfl
@[simp] theorem setEngine_host (e : EngineRegs) (s : State) : (setEngine e s).host = s.host := rfl
@[simp] theorem setEngine_replies (e : EngineRegs) (s : State) : (setEngine e s).replies = s.replies := rfl
@[simp] theorem setEngine_due (e : EngineRegs) (s : State) : (setEngine e s).due = s.due := rfl
@[simp] theorem setEngine_draws (e : EngineRegs) (s : State) : (setEngine e s).draws = s.draws := rfl
@[simp] theorem setEngine_ibufDraw (e : EngineRegs) (s : State) : (setEngine e s).ibufDraw = s.ibufDraw := rfl
@[simp] theorem setEngine_obufDraw (e : EngineRegs) (s : State) : (setEngine e s).obufDraw = s.obufDraw := rfl

/-! ### storeDout -/

@[simp] theorem storeDout_params (v : Block) (s : State) : (storeDout v s).params = s.params := rfl
@[simp] theorem storeDout_key0 (v : Block) (s : State) : (storeDout v s).key0 = s.key0 := rfl
@[simp] theorem storeDout_key1 (v : Block) (s : State) : (storeDout v s).key1 = s.key1 := rfl
@[simp] theorem storeDout_key2 (v : Block) (s : State) : (storeDout v s).key2 = s.key2 := rfl
@[simp] theorem storeDout_key3 (v : Block) (s : State) : (storeDout v s).key3 = s.key3 := rfl
@[simp] theorem storeDout_ivHi (v : Block) (s : State) : (storeDout v s).ivHi = s.ivHi := rfl
@[simp] theorem storeDout_ivLo (v : Block) (s : State) : (storeDout v s).ivLo = s.ivLo := rfl
@[simp] theorem storeDout_dinHi (v : Block) (s : State) : (storeDout v s).dinHi = s.dinHi := rfl
@[simp] theorem storeDout_dinLo (v : Block) (s : State) : (storeDout v s).dinLo = s.dinLo := rfl
@[simp] theorem storeDout_doutHi (v : Block) (s : State) : (storeDout v s).doutHi = leftHalf v := rfl
@[simp] theorem storeDout_doutLo (v : Block) (s : State) : (storeDout v s).doutLo = rightHalf v := rfl
@[simp] theorem storeDout_rounds (v : Block) (s : State) : (storeDout v s).rounds = s.rounds := rfl
@[simp] theorem storeDout_len (v : Block) (s : State) : (storeDout v s).len = s.len := rfl
@[simp] theorem storeDout_olen (v : Block) (s : State) : (storeDout v s).olen = s.olen := rfl
@[simp] theorem storeDout_status (v : Block) (s : State) : (storeDout v s).status = s.status := rfl
@[simp] theorem storeDout_ibuf (v : Block) (s : State) : (storeDout v s).ibuf = s.ibuf := rfl
@[simp] theorem storeDout_obuf (v : Block) (s : State) : (storeDout v s).obuf = s.obuf := rfl
@[simp] theorem storeDout_eng (v : Block) (s : State) : (storeDout v s).eng = s.eng := rfl
@[simp] theorem storeDout_host (v : Block) (s : State) : (storeDout v s).host = s.host := rfl
@[simp] theorem storeDout_replies (v : Block) (s : State) : (storeDout v s).replies = s.replies := rfl
@[simp] theorem storeDout_due (v : Block) (s : State) : (storeDout v s).due = s.due := rfl
@[simp] theorem storeDout_draws (v : Block) (s : State) : (storeDout v s).draws = s.draws := rfl
@[simp] theorem storeDout_ibufDraw (v : Block) (s : State) : (storeDout v s).ibufDraw = s.ibufDraw := rfl
@[simp] theorem storeDout_obufDraw (v : Block) (s : State) : (storeDout v s).obufDraw = s.obufDraw := rfl

/-! ### storeOutput -/

@[simp] theorem storeOutput_params (out : List Byte) (s : State) : (storeOutput out s).params = s.params := rfl
@[simp] theorem storeOutput_key0 (out : List Byte) (s : State) : (storeOutput out s).key0 = s.key0 := rfl
@[simp] theorem storeOutput_key1 (out : List Byte) (s : State) : (storeOutput out s).key1 = s.key1 := rfl
@[simp] theorem storeOutput_key2 (out : List Byte) (s : State) : (storeOutput out s).key2 = s.key2 := rfl
@[simp] theorem storeOutput_key3 (out : List Byte) (s : State) : (storeOutput out s).key3 = s.key3 := rfl
@[simp] theorem storeOutput_ivHi (out : List Byte) (s : State) : (storeOutput out s).ivHi = s.ivHi := rfl
@[simp] theorem storeOutput_ivLo (out : List Byte) (s : State) : (storeOutput out s).ivLo = s.ivLo := rfl
@[simp] theorem storeOutput_dinHi (out : List Byte) (s : State) : (storeOutput out s).dinHi = s.dinHi := rfl
@[simp] theorem storeOutput_dinLo (out : List Byte) (s : State) : (storeOutput out s).dinLo = s.dinLo := rfl
@[simp] theorem storeOutput_doutHi (out : List Byte) (s : State) : (storeOutput out s).doutHi = s.doutHi := rfl
@[simp] theorem storeOutput_doutLo (out : List Byte) (s : State) : (storeOutput out s).doutLo = s.doutLo := rfl
@[simp] theorem storeOutput_rounds (out : List Byte) (s : State) : (storeOutput out s).rounds = s.rounds := rfl
@[simp] theorem storeOutput_len (out : List Byte) (s : State) : (storeOutput out s).len = s.len := rfl
@[simp] theorem storeOutput_olen (out : List Byte) (s : State) : (storeOutput out s).olen = BitVec.ofNat 32 out.length := rfl
@[simp] theorem storeOutput_status (out : List Byte) (s : State) : (storeOutput out s).status = s.status := rfl
@[simp] theorem storeOutput_ibuf (out : List Byte) (s : State) : (storeOutput out s).ibuf = s.ibuf := rfl
@[simp] theorem storeOutput_obuf (out : List Byte) (s : State) : (storeOutput out s).obuf = Memory.writeBytes [] 0 out := rfl
@[simp] theorem storeOutput_eng (out : List Byte) (s : State) : (storeOutput out s).eng = s.eng := rfl
@[simp] theorem storeOutput_host (out : List Byte) (s : State) : (storeOutput out s).host = s.host := rfl
@[simp] theorem storeOutput_replies (out : List Byte) (s : State) : (storeOutput out s).replies = s.replies := rfl
@[simp] theorem storeOutput_due (out : List Byte) (s : State) : (storeOutput out s).due = s.due := rfl
@[simp] theorem storeOutput_draws (out : List Byte) (s : State) : (storeOutput out s).draws = s.draws + 1 := rfl
@[simp] theorem storeOutput_ibufDraw (out : List Byte) (s : State) : (storeOutput out s).ibufDraw = s.ibufDraw := rfl
@[simp] theorem storeOutput_obufDraw (out : List Byte) (s : State) : (storeOutput out s).obufDraw = s.draws := rfl

/-! ### storeIbuf -/

@[simp] theorem storeIbuf_params (i : Nat) (b : Byte) (s : State) : (storeIbuf i b s).params = s.params := rfl
@[simp] theorem storeIbuf_key0 (i : Nat) (b : Byte) (s : State) : (storeIbuf i b s).key0 = s.key0 := rfl
@[simp] theorem storeIbuf_key1 (i : Nat) (b : Byte) (s : State) : (storeIbuf i b s).key1 = s.key1 := rfl
@[simp] theorem storeIbuf_key2 (i : Nat) (b : Byte) (s : State) : (storeIbuf i b s).key2 = s.key2 := rfl
@[simp] theorem storeIbuf_key3 (i : Nat) (b : Byte) (s : State) : (storeIbuf i b s).key3 = s.key3 := rfl
@[simp] theorem storeIbuf_ivHi (i : Nat) (b : Byte) (s : State) : (storeIbuf i b s).ivHi = s.ivHi := rfl
@[simp] theorem storeIbuf_ivLo (i : Nat) (b : Byte) (s : State) : (storeIbuf i b s).ivLo = s.ivLo := rfl
@[simp] theorem storeIbuf_dinHi (i : Nat) (b : Byte) (s : State) : (storeIbuf i b s).dinHi = s.dinHi := rfl
@[simp] theorem storeIbuf_dinLo (i : Nat) (b : Byte) (s : State) : (storeIbuf i b s).dinLo = s.dinLo := rfl
@[simp] theorem storeIbuf_doutHi (i : Nat) (b : Byte) (s : State) : (storeIbuf i b s).doutHi = s.doutHi := rfl
@[simp] theorem storeIbuf_doutLo (i : Nat) (b : Byte) (s : State) : (storeIbuf i b s).doutLo = s.doutLo := rfl
@[simp] theorem storeIbuf_rounds (i : Nat) (b : Byte) (s : State) : (storeIbuf i b s).rounds = s.rounds := rfl
@[simp] theorem storeIbuf_len (i : Nat) (b : Byte) (s : State) : (storeIbuf i b s).len = s.len := rfl
@[simp] theorem storeIbuf_olen (i : Nat) (b : Byte) (s : State) : (storeIbuf i b s).olen = s.olen := rfl
@[simp] theorem storeIbuf_status (i : Nat) (b : Byte) (s : State) : (storeIbuf i b s).status = s.status := rfl
@[simp] theorem storeIbuf_ibuf (i : Nat) (b : Byte) (s : State) : (storeIbuf i b s).ibuf = s.ibuf.write i b := rfl
@[simp] theorem storeIbuf_obuf (i : Nat) (b : Byte) (s : State) : (storeIbuf i b s).obuf = s.obuf := rfl
@[simp] theorem storeIbuf_eng (i : Nat) (b : Byte) (s : State) : (storeIbuf i b s).eng = s.eng := rfl
@[simp] theorem storeIbuf_host (i : Nat) (b : Byte) (s : State) : (storeIbuf i b s).host = s.host := rfl
@[simp] theorem storeIbuf_replies (i : Nat) (b : Byte) (s : State) : (storeIbuf i b s).replies = s.replies := rfl
@[simp] theorem storeIbuf_due (i : Nat) (b : Byte) (s : State) : (storeIbuf i b s).due = s.due := rfl
@[simp] theorem storeIbuf_draws (i : Nat) (b : Byte) (s : State) : (storeIbuf i b s).draws = s.draws := rfl
@[simp] theorem storeIbuf_ibufDraw (i : Nat) (b : Byte) (s : State) : (storeIbuf i b s).ibufDraw = s.ibufDraw := rfl
@[simp] theorem storeIbuf_obufDraw (i : Nat) (b : Byte) (s : State) : (storeIbuf i b s).obufDraw = s.obufDraw := rfl

/-! ### acceptStart -/

@[simp] theorem acceptStart_params (op : BitVec 3) (s : State) : (acceptStart op s).params = s.params := rfl
@[simp] theorem acceptStart_key0 (op : BitVec 3) (s : State) : (acceptStart op s).key0 = s.key0 := rfl
@[simp] theorem acceptStart_key1 (op : BitVec 3) (s : State) : (acceptStart op s).key1 = s.key1 := rfl
@[simp] theorem acceptStart_key2 (op : BitVec 3) (s : State) : (acceptStart op s).key2 = s.key2 := rfl
@[simp] theorem acceptStart_key3 (op : BitVec 3) (s : State) : (acceptStart op s).key3 = s.key3 := rfl
@[simp] theorem acceptStart_ivHi (op : BitVec 3) (s : State) : (acceptStart op s).ivHi = s.ivHi := rfl
@[simp] theorem acceptStart_ivLo (op : BitVec 3) (s : State) : (acceptStart op s).ivLo = s.ivLo := rfl
@[simp] theorem acceptStart_dinHi (op : BitVec 3) (s : State) : (acceptStart op s).dinHi = s.dinHi := rfl
@[simp] theorem acceptStart_dinLo (op : BitVec 3) (s : State) : (acceptStart op s).dinLo = s.dinLo := rfl
@[simp] theorem acceptStart_doutHi (op : BitVec 3) (s : State) : (acceptStart op s).doutHi = s.doutHi := rfl
@[simp] theorem acceptStart_doutLo (op : BitVec 3) (s : State) : (acceptStart op s).doutLo = s.doutLo := rfl
@[simp] theorem acceptStart_rounds (op : BitVec 3) (s : State) : (acceptStart op s).rounds = s.rounds := rfl
@[simp] theorem acceptStart_len (op : BitVec 3) (s : State) : (acceptStart op s).len = s.len := rfl
@[simp] theorem acceptStart_olen (op : BitVec 3) (s : State) : (acceptStart op s).olen = s.olen := rfl
@[simp] theorem acceptStart_status (op : BitVec 3) (s : State) : (acceptStart op s).status = statusStarted s.status := rfl
@[simp] theorem acceptStart_ibuf (op : BitVec 3) (s : State) : (acceptStart op s).ibuf = s.ibuf := rfl
@[simp] theorem acceptStart_obuf (op : BitVec 3) (s : State) : (acceptStart op s).obuf = s.obuf := rfl
@[simp] theorem acceptStart_eng (op : BitVec 3) (s : State) : (acceptStart op s).eng = { s.eng with op := op } := rfl
@[simp] theorem acceptStart_host (op : BitVec 3) (s : State) : (acceptStart op s).host = s.host := rfl
@[simp] theorem acceptStart_replies (op : BitVec 3) (s : State) : (acceptStart op s).replies = s.replies := rfl
@[simp] theorem acceptStart_due (op : BitVec 3) (s : State) : (acceptStart op s).due = Config.latency s.draws := rfl
@[simp] theorem acceptStart_draws (op : BitVec 3) (s : State) : (acceptStart op s).draws = s.draws + 1 := rfl
@[simp] theorem acceptStart_ibufDraw (op : BitVec 3) (s : State) : (acceptStart op s).ibufDraw = s.ibufDraw := rfl
@[simp] theorem acceptStart_obufDraw (op : BitVec 3) (s : State) : (acceptStart op s).obufDraw = s.obufDraw := rfl

/-! ### reply -/

@[simp] theorem reply_params (r : Reply) (s : State) : (reply r s).params = s.params := rfl
@[simp] theorem reply_key0 (r : Reply) (s : State) : (reply r s).key0 = s.key0 := rfl
@[simp] theorem reply_key1 (r : Reply) (s : State) : (reply r s).key1 = s.key1 := rfl
@[simp] theorem reply_key2 (r : Reply) (s : State) : (reply r s).key2 = s.key2 := rfl
@[simp] theorem reply_key3 (r : Reply) (s : State) : (reply r s).key3 = s.key3 := rfl
@[simp] theorem reply_ivHi (r : Reply) (s : State) : (reply r s).ivHi = s.ivHi := rfl
@[simp] theorem reply_ivLo (r : Reply) (s : State) : (reply r s).ivLo = s.ivLo := rfl
@[simp] theorem reply_dinHi (r : Reply) (s : State) : (reply r s).dinHi = s.dinHi := rfl
@[simp] theorem reply_dinLo (r : Reply) (s : State) : (reply r s).dinLo = s.dinLo := rfl
@[simp] theorem reply_doutHi (r : Reply) (s : State) : (reply r s).doutHi = s.doutHi := rfl
@[simp] theorem reply_doutLo (r : Reply) (s : State) : (reply r s).doutLo = s.doutLo := rfl
@[simp] theorem reply_rounds (r : Reply) (s : State) : (reply r s).rounds = s.rounds := rfl
@[simp] theorem reply_len (r : Reply) (s : State) : (reply r s).len = s.len := rfl
@[simp] theorem reply_olen (r : Reply) (s : State) : (reply r s).olen = s.olen := rfl
@[simp] theorem reply_status (r : Reply) (s : State) : (reply r s).status = s.status := rfl
@[simp] theorem reply_ibuf (r : Reply) (s : State) : (reply r s).ibuf = s.ibuf := rfl
@[simp] theorem reply_obuf (r : Reply) (s : State) : (reply r s).obuf = s.obuf := rfl
@[simp] theorem reply_eng (r : Reply) (s : State) : (reply r s).eng = s.eng := rfl
@[simp] theorem reply_host (r : Reply) (s : State) : (reply r s).host = s.host := rfl
@[simp] theorem reply_replies (r : Reply) (s : State) : (reply r s).replies = s.replies ++ [r] := rfl
@[simp] theorem reply_due (r : Reply) (s : State) : (reply r s).due = s.due := rfl
@[simp] theorem reply_draws (r : Reply) (s : State) : (reply r s).draws = s.draws := rfl
@[simp] theorem reply_ibufDraw (r : Reply) (s : State) : (reply r s).ibufDraw = s.ibufDraw := rfl
@[simp] theorem reply_obufDraw (r : Reply) (s : State) : (reply r s).obufDraw = s.obufDraw := rfl

/-! ### countDraw -/

@[simp] theorem countDraw_params (s : State) : (countDraw s).params = s.params := rfl
@[simp] theorem countDraw_key0 (s : State) : (countDraw s).key0 = s.key0 := rfl
@[simp] theorem countDraw_key1 (s : State) : (countDraw s).key1 = s.key1 := rfl
@[simp] theorem countDraw_key2 (s : State) : (countDraw s).key2 = s.key2 := rfl
@[simp] theorem countDraw_key3 (s : State) : (countDraw s).key3 = s.key3 := rfl
@[simp] theorem countDraw_ivHi (s : State) : (countDraw s).ivHi = s.ivHi := rfl
@[simp] theorem countDraw_ivLo (s : State) : (countDraw s).ivLo = s.ivLo := rfl
@[simp] theorem countDraw_dinHi (s : State) : (countDraw s).dinHi = s.dinHi := rfl
@[simp] theorem countDraw_dinLo (s : State) : (countDraw s).dinLo = s.dinLo := rfl
@[simp] theorem countDraw_doutHi (s : State) : (countDraw s).doutHi = s.doutHi := rfl
@[simp] theorem countDraw_doutLo (s : State) : (countDraw s).doutLo = s.doutLo := rfl
@[simp] theorem countDraw_rounds (s : State) : (countDraw s).rounds = s.rounds := rfl
@[simp] theorem countDraw_len (s : State) : (countDraw s).len = s.len := rfl
@[simp] theorem countDraw_olen (s : State) : (countDraw s).olen = s.olen := rfl
@[simp] theorem countDraw_status (s : State) : (countDraw s).status = s.status := rfl
@[simp] theorem countDraw_ibuf (s : State) : (countDraw s).ibuf = s.ibuf := rfl
@[simp] theorem countDraw_obuf (s : State) : (countDraw s).obuf = s.obuf := rfl
@[simp] theorem countDraw_eng (s : State) : (countDraw s).eng = s.eng := rfl
@[simp] theorem countDraw_host (s : State) : (countDraw s).host = s.host := rfl
@[simp] theorem countDraw_replies (s : State) : (countDraw s).replies = s.replies := rfl
@[simp] theorem countDraw_due (s : State) : (countDraw s).due = s.due := rfl
@[simp] theorem countDraw_draws (s : State) : (countDraw s).draws = s.draws + 1 := rfl
@[simp] theorem countDraw_ibufDraw (s : State) : (countDraw s).ibufDraw = s.ibufDraw := rfl
@[simp] theorem countDraw_obufDraw (s : State) : (countDraw s).obufDraw = s.obufDraw := rfl

/-! ### takeAccess -/

@[simp] theorem takeAccess_params (rest : List Access) (s : State) : (takeAccess rest s).params = s.params := rfl
@[simp] theorem takeAccess_key0 (rest : List Access) (s : State) : (takeAccess rest s).key0 = s.key0 := rfl
@[simp] theorem takeAccess_key1 (rest : List Access) (s : State) : (takeAccess rest s).key1 = s.key1 := rfl
@[simp] theorem takeAccess_key2 (rest : List Access) (s : State) : (takeAccess rest s).key2 = s.key2 := rfl
@[simp] theorem takeAccess_key3 (rest : List Access) (s : State) : (takeAccess rest s).key3 = s.key3 := rfl
@[simp] theorem takeAccess_ivHi (rest : List Access) (s : State) : (takeAccess rest s).ivHi = s.ivHi := rfl
@[simp] theorem takeAccess_ivLo (rest : List Access) (s : State) : (takeAccess rest s).ivLo = s.ivLo := rfl
@[simp] theorem takeAccess_dinHi (rest : List Access) (s : State) : (takeAccess rest s).dinHi = s.dinHi := rfl
@[simp] theorem takeAccess_dinLo (rest : List Access) (s : State) : (takeAccess rest s).dinLo = s.dinLo := rfl
@[simp] theorem takeAccess_doutHi (rest : List Access) (s : State) : (takeAccess rest s).doutHi = s.doutHi := rfl
@[simp] theorem takeAccess_doutLo (rest : List Access) (s : State) : (takeAccess rest s).doutLo = s.doutLo := rfl
@[simp] theorem takeAccess_rounds (rest : List Access) (s : State) : (takeAccess rest s).rounds = s.rounds := rfl
@[simp] theorem takeAccess_len (rest : List Access) (s : State) : (takeAccess rest s).len = s.len := rfl
@[simp] theorem takeAccess_olen (rest : List Access) (s : State) : (takeAccess rest s).olen = s.olen := rfl
@[simp] theorem takeAccess_status (rest : List Access) (s : State) : (takeAccess rest s).status = s.status := rfl
@[simp] theorem takeAccess_ibuf (rest : List Access) (s : State) : (takeAccess rest s).ibuf = s.ibuf := rfl
@[simp] theorem takeAccess_obuf (rest : List Access) (s : State) : (takeAccess rest s).obuf = s.obuf := rfl
@[simp] theorem takeAccess_eng (rest : List Access) (s : State) : (takeAccess rest s).eng = s.eng := rfl
@[simp] theorem takeAccess_host (rest : List Access) (s : State) : (takeAccess rest s).host = rest := rfl
@[simp] theorem takeAccess_replies (rest : List Access) (s : State) : (takeAccess rest s).replies = s.replies := rfl
@[simp] theorem takeAccess_due (rest : List Access) (s : State) : (takeAccess rest s).due = s.due - 1 := rfl
@[simp] theorem takeAccess_draws (rest : List Access) (s : State) : (takeAccess rest s).draws = s.draws := rfl
@[simp] theorem takeAccess_ibufDraw (rest : List Access) (s : State) : (takeAccess rest s).ibufDraw = s.ibufDraw := rfl
@[simp] theorem takeAccess_obufDraw (rest : List Access) (s : State) : (takeAccess rest s).obufDraw = s.obufDraw := rfl

/-! ### The updates that are a new `STATUS` -/

@[simp] theorem raiseError_eq (e : ErrorCode) (s : State) : raiseError e s = setStatus (statusRaised e s.status) s := rfl

@[simp] theorem complete_eq (s : State) : complete s = setStatus (statusCompleted s.status) s := rfl

@[simp] theorem hazard_eq (s : State) : hazard s = setStatus (statusHazard s.status) s := rfl

/-! ### statusCleared -/

@[simp] theorem statusCleared_busy (t : Status) : (statusCleared t).busy = t.busy := rfl
@[simp] theorem statusCleared_done (t : Status) : (statusCleared t).done = false := rfl
@[simp] theorem statusCleared_err (t : Status) : (statusCleared t).err = false := rfl
@[simp] theorem statusCleared_hzd (t : Status) : (statusCleared t).hzd = t.hzd := rfl
@[simp] theorem statusCleared_ecode (t : Status) : (statusCleared t).ecode = 0 := rfl

/-! ### statusStarted -/

@[simp] theorem statusStarted_busy (t : Status) : (statusStarted t).busy = true := rfl
@[simp] theorem statusStarted_done (t : Status) : (statusStarted t).done = false := rfl
@[simp] theorem statusStarted_err (t : Status) : (statusStarted t).err = false := rfl
@[simp] theorem statusStarted_hzd (t : Status) : (statusStarted t).hzd = t.hzd := rfl
@[simp] theorem statusStarted_ecode (t : Status) : (statusStarted t).ecode = 0 := rfl

/-! ### statusRaised -/

@[simp] theorem statusRaised_busy (e : ErrorCode) (t : Status) : (statusRaised e t).busy = t.busy := rfl
@[simp] theorem statusRaised_done (e : ErrorCode) (t : Status) : (statusRaised e t).done = false := rfl
@[simp] theorem statusRaised_err (e : ErrorCode) (t : Status) : (statusRaised e t).err = true := rfl
@[simp] theorem statusRaised_hzd (e : ErrorCode) (t : Status) : (statusRaised e t).hzd = t.hzd := rfl
@[simp] theorem statusRaised_ecode (e : ErrorCode) (t : Status) : (statusRaised e t).ecode = errorNumber e := rfl

/-! ### statusCompleted -/

@[simp] theorem statusCompleted_busy (t : Status) : (statusCompleted t).busy = false := rfl
@[simp] theorem statusCompleted_done (t : Status) : (statusCompleted t).done = true := rfl
@[simp] theorem statusCompleted_err (t : Status) : (statusCompleted t).err = t.err := rfl
@[simp] theorem statusCompleted_hzd (t : Status) : (statusCompleted t).hzd = t.hzd := rfl
@[simp] theorem statusCompleted_ecode (t : Status) : (statusCompleted t).ecode = t.ecode := rfl

/-! ### statusHazard -/

@[simp] theorem statusHazard_busy (t : Status) : (statusHazard t).busy = t.busy := rfl
@[simp] theorem statusHazard_done (t : Status) : (statusHazard t).done = t.done := rfl
@[simp] theorem statusHazard_err (t : Status) : (statusHazard t).err = t.err := rfl
@[simp] theorem statusHazard_hzd (t : Status) : (statusHazard t).hzd = true := rfl
@[simp] theorem statusHazard_ecode (t : Status) : (statusHazard t).ecode = t.ecode := rfl

/-! ### statusWrite -/

@[simp] theorem statusWrite_busy (w : Word) (t : Status) : (statusWrite w t).busy = t.busy := rfl
@[simp] theorem statusWrite_done (w : Word) (t : Status) : (statusWrite w t).done = (t.done && !w.getLsbD 1) := rfl
@[simp] theorem statusWrite_err (w : Word) (t : Status) : (statusWrite w t).err = (t.err && !w.getLsbD 2) := rfl
@[simp] theorem statusWrite_hzd (w : Word) (t : Status) : (statusWrite w t).hzd = (t.hzd && !w.getLsbD 3) := rfl
@[simp] theorem statusWrite_ecode (w : Word) (t : Status) : (statusWrite w t).ecode = (if w.getLsbD 2 then 0 else t.ecode) := rfl

/-! ### engineAfterBlock -/

@[simp] theorem engineAfterBlock_op (sum rounds : Word) (y : Block) (e : EngineRegs) : (engineAfterBlock sum rounds y e).op = e.op := rfl
@[simp] theorem engineAfterBlock_blk (sum rounds : Word) (y : Block) (e : EngineRegs) : (engineAfterBlock sum rounds y e).blk = e.blk := rfl
@[simp] theorem engineAfterBlock_rnd (sum rounds : Word) (y : Block) (e : EngineRegs) : (engineAfterBlock sum rounds y e).rnd = rounds := rfl
@[simp] theorem engineAfterBlock_l (sum rounds : Word) (y : Block) (e : EngineRegs) : (engineAfterBlock sum rounds y e).l = leftHalf y := rfl
@[simp] theorem engineAfterBlock_r (sum rounds : Word) (y : Block) (e : EngineRegs) : (engineAfterBlock sum rounds y e).r = rightHalf y := rfl
@[simp] theorem engineAfterBlock_sum (sum rounds : Word) (y : Block) (e : EngineRegs) : (engineAfterBlock sum rounds y e).sum = sum := rfl
@[simp] theorem engineAfterBlock_prev (sum rounds : Word) (y : Block) (e : EngineRegs) : (engineAfterBlock sum rounds y e).prev = e.prev := rfl

/-! ### engineAtBlock -/

@[simp] theorem engineAtBlock_op (n : Nat) (e : EngineRegs) : (engineAtBlock n e).op = e.op := rfl
@[simp] theorem engineAtBlock_blk (n : Nat) (e : EngineRegs) : (engineAtBlock n e).blk = BitVec.ofNat 32 n := rfl
@[simp] theorem engineAtBlock_rnd (n : Nat) (e : EngineRegs) : (engineAtBlock n e).rnd = e.rnd := rfl
@[simp] theorem engineAtBlock_l (n : Nat) (e : EngineRegs) : (engineAtBlock n e).l = e.l := rfl
@[simp] theorem engineAtBlock_r (n : Nat) (e : EngineRegs) : (engineAtBlock n e).r = e.r := rfl
@[simp] theorem engineAtBlock_sum (n : Nat) (e : EngineRegs) : (engineAtBlock n e).sum = e.sum := rfl
@[simp] theorem engineAtBlock_prev (n : Nat) (e : EngineRegs) : (engineAtBlock n e).prev = e.prev := rfl

/-! ### engineChained -/

@[simp] theorem engineChained_op (p : Block) (e : EngineRegs) : (engineChained p e).op = e.op := rfl
@[simp] theorem engineChained_blk (p : Block) (e : EngineRegs) : (engineChained p e).blk = e.blk := rfl
@[simp] theorem engineChained_rnd (p : Block) (e : EngineRegs) : (engineChained p e).rnd = e.rnd := rfl
@[simp] theorem engineChained_l (p : Block) (e : EngineRegs) : (engineChained p e).l = e.l := rfl
@[simp] theorem engineChained_r (p : Block) (e : EngineRegs) : (engineChained p e).r = e.r := rfl
@[simp] theorem engineChained_sum (p : Block) (e : EngineRegs) : (engineChained p e).sum = e.sum := rfl
@[simp] theorem engineChained_prev (p : Block) (e : EngineRegs) : (engineChained p e).prev = p := rfl

end Sys2Proof.Machine
end

