-- ==== Sys2Proof/Laws/Command.lean ====
section
/-! SUPPORT. What a command can do, said once: `exec` is `command` on the command's own opcode, checks and pseudocode, and its
answer is one of four. -/

namespace Sys2Proof.Machine

/-- The pseudocode of a command (R122, R123, R146, R147, R163, R164). -/
def runOf : Instr → State → State
  | .encBlk => runEncBlk
  | .decBlk => runDecBlk
  | .ecbEnc => runEcb .encrypt
  | .ecbDec => runEcb .decrypt
  | .cbcEnc => runCbcEnc
  | .cbcDec => runCbcDec

/-- `exec` is the shared operation on the command's own parts. -/
theorem exec_eq_command (i : Instr) (s : State) : exec i s = command i.opcode (startError i) (runOf i) s := by
  cases i <;> rfl

/-- The answer of `command` by the state of `BUSY` and the check: a rejected START. -/
theorem command_rejected {op : BitVec 3} {check : State → Option ErrorCode} {run : State → State} {s : State}
    {e : ErrorCode} (hb : s.status.busy = false) (hc : check s = some e) :
    command op check run s = .next (raiseError e s) := by
  simp [command, hb, hc]

/-- An accepted START. -/
theorem command_accepted {op : BitVec 3} {check : State → Option ErrorCode} {run : State → State} {s : State}
    (hb : s.status.busy = false) (hc : check s = none) : command op check run s = .next (acceptStart op s) := by
  simp [command, hb, hc]

/-- The completion. -/
theorem command_completes {op : BitVec 3} {check : State → Option ErrorCode} {run : State → State} {s : State}
    (hb : s.status.busy = true) (hc : check s = none) : command op check run s = .next (complete (run s)) := by
  simp [command, hb, hc]

/-- Everything `exec` can do: reject the START, accept it, complete, or stop in a state START would have rejected. -/
theorem exec_cases (i : Instr) (s : State) :
    (s.status.busy = false ∧ ∃ e, startError i s = some e ∧ exec i s = .next (raiseError e s)) ∨
    (s.status.busy = false ∧ startError i s = none ∧ exec i s = .next (acceptStart i.opcode s)) ∨
    (s.status.busy = true ∧ startError i s = none ∧ exec i s = .next (complete (runOf i s))) ∨
    (s.status.busy = true ∧ ∃ e, startError i s = some e ∧ exec i s = .fault .notAccepted) := by
  rw [exec_eq_command]
  unfold command
  cases hb : s.status.busy <;> cases hc : startError i s <;> simp

/-- If `exec` answers a next state, it is a rejected START, an accepted START or a completion. -/
theorem exec_next {i : Instr} {s t : State} (h : exec i s = .next t) :
    (s.status.busy = false ∧ ∃ e, startError i s = some e ∧ t = raiseError e s) ∨
    (s.status.busy = false ∧ startError i s = none ∧ t = acceptStart i.opcode s) ∨
    (s.status.busy = true ∧ startError i s = none ∧ t = complete (runOf i s)) := by
  rcases exec_cases i s with ⟨hb, e, he, hx⟩ | ⟨hb, he, hx⟩ | ⟨hb, he, hx⟩ | ⟨hb, e, he, hx⟩
  · rw [h] at hx; injection hx with hx
    exact .inl ⟨hb, e, he, hx⟩
  · rw [h] at hx; injection hx with hx
    exact .inr (.inl ⟨hb, he, hx⟩)
  · rw [h] at hx; injection hx with hx
    exact .inr (.inr ⟨hb, he, hx⟩)
  · rw [h] at hx; cases hx

/-- `exec` never refuses. -/
theorem exec_not_refused (i : Instr) (s : State) (why : Refusal) : exec i s ≠ .refused why := by
  rcases exec_cases i s with ⟨_, _, _, hx⟩ | ⟨_, _, hx⟩ | ⟨_, _, hx⟩ | ⟨_, _, _, hx⟩ <;> rw [hx] <;> simp

/-- The pseudocode of a block command writes `DOUT` and the hidden registers. -/
theorem runOf_block {i : Instr} (h : isBlockCommand i = true) (s : State) : ∃ v e, runOf i s = setEngine e (storeDout v s) := by
  cases i <;> simp [isBlockCommand] at h
  · exact ⟨_, _, rfl⟩
  · exact ⟨_, _, rfl⟩

/-- The output byte sequence of a buffer command. -/
def outputOf : Instr → State → List Byte
  | .encBlk, _ => []
  | .decBlk, _ => []
  | .ecbEnc, s => ecbTransform (bytesOperand s) (keyOperand s) .encrypt
  | .ecbDec, s => ecbTransform (bytesOperand s) (keyOperand s) .decrypt
  | .cbcEnc, s => cbcEncrypt (bytesOperand s) (keyOperand s) (ivOperand s)
  | .cbcDec, s => cbcDecrypt (bytesOperand s) (keyOperand s)

/-- The pseudocode of a buffer command stores its output and writes the hidden registers. -/
theorem runOf_buffer {i : Instr} (h : isBlockCommand i = false) (s : State) :
    ∃ e, runOf i s = setEngine e (storeOutput (outputOf i s) s) := by
  cases i <;> simp [isBlockCommand] at h
  · exact ⟨_, rfl⟩
  · exact ⟨_, rfl⟩
  · exact ⟨_, rfl⟩
  · exact ⟨_, rfl⟩

/-- A START depends only on the configuration and `LEN`. -/
theorem startError_congr (i : Instr) {s t : State} (hp : s.params = t.params) (hl : s.len = t.len) :
    startError i s = startError i t := by
  cases i <;> simp [startError, checkNothing, checkRange, checkRangeAndRagged, hp, hl]

/-- An accepted buffer command has `LEN <= MAXLEN`. -/
theorem len_le_of_startError_none {i : Instr} (hi : isBlockCommand i = false) {s : State} (h : startError i s = none) :
    s.len.toNat ≤ s.params.maxlen.val := by
  by_contra hlt
  have hlt' : s.params.maxlen.val < s.len.toNat := by omega
  cases i <;> simp [isBlockCommand] at hi <;> simp [startError, checkRange, checkRangeAndRagged, hlt'] at h

end Sys2Proof.Machine
end

