-- ==== Sys2Proof/Laws/Agents.lean ====
section
/-! SUPPORT. What a step can do, said once: the engine's turn, the idle step, or one access of the host. -/

namespace Sys2Proof.Machine

/-- The engine's turn, in the claims' terms. -/
theorem engineMoves_iff (s : State) : EngineMoves s ↔ (s.status.busy && engineMoves s) = true := by
  unfold EngineMoves engineMoves
  rcases h : s.host with _ | ⟨a, rest⟩
  · simp
  · cases a <;> simp

/-- In the engine's turn a step is the completion step. -/
theorem step_engine {s : State} (h : EngineMoves s) : step s = engineTurn s := by
  have := (engineMoves_iff s).mp h
  simp [step, nextStep, this]

/-- In the host's turn a step is the host's access. -/
theorem step_host {s : State} {a : Access} {rest : List Access} (h : HostMoves s a rest) :
    step s = hostTurn a (takeAccess rest s) := by
  obtain ⟨hh, hb⟩ := h
  have hne : (s.status.busy && engineMoves s) = false := by
    rcases hb with hb | ⟨hd, hw⟩
    · simp [hb]
    · have : engineMoves s = false := by
        unfold engineMoves
        rw [hh]
        cases a <;> simp at hw ⊢ <;> omega
      simp [this]
  simp [step, nextStep, hne, hh]

/-- Everything a step can be. -/
theorem step_cases (s : State) :
    (EngineMoves s ∧ step s = engineTurn s) ∨ (s.status.busy = false ∧ s.host = [] ∧ step s = .next s) ∨
    ∃ a rest, HostMoves s a rest ∧ step s = hostTurn a (takeAccess rest s) := by
  by_cases he : EngineMoves s
  · exact .inl ⟨he, step_engine he⟩
  · rcases hh : s.host with _ | ⟨a, rest⟩
    · cases hb : s.status.busy
      · exact .inr (.inl ⟨rfl, rfl, by simp [step, nextStep, hb, hh]⟩)
      · exact absurd ⟨hb, .inl hh⟩ he
    · refine .inr (.inr ⟨a, rest, ?_⟩)
      have hm : HostMoves s a rest := by
        refine ⟨hh, ?_⟩
        cases hb : s.status.busy
        · exact .inl rfl
        · refine .inr ⟨?_, ?_⟩
          · by_contra hd
            exact he ⟨hb, .inr (.inl (by omega))⟩
          · rintro rfl
            exact he ⟨hb, .inr (.inr ⟨rest, hh⟩)⟩
      exact ⟨hm, step_host hm⟩

/-- If the engine's turn answers a next state, it is that of the command in `OP`. -/
theorem engineTurn_next {s t : State} (h : engineTurn s = .next t) :
    ∃ i, decodeOpcode s.eng.op = .command i ∧ exec i s = .next t := by
  unfold engineTurn at h
  split at h
  · exact ⟨_, ‹_›, h⟩
  · cases h

/-- An index is inside its space when it is below the size. -/
@[simp] theorem indexInSpace_eq_true (p : Params) (space : Space) (i : Nat) :
    indexInSpace p space i = true ↔ i < space.size p := decide_eq_true_iff

/-- An index is outside its space when it is not below the size. -/
@[simp] theorem indexInSpace_eq_false (p : Params) (space : Space) (i : Nat) :
    indexInSpace p space i = false ↔ space.size p ≤ i := by
  rw [← Bool.not_eq_true, indexInSpace_eq_true, Nat.not_lt]

/-- An access is refused exactly when it is not well-formed. -/
theorem accessRefusal_none_iff (p : Params) (a : Access) : accessRefusal p a = none ↔ a.wellFormed p = true := by
  cases a with
  | rd offset => simp only [accessRefusal, offsetRefusal, Access.wellFormed]; cases offsetAligned offset <;> cases offsetInSpace offset <;> simp
  | wr offset v => simp only [accessRefusal, offsetRefusal, Access.wellFormed]; cases offsetAligned offset <;> cases offsetInSpace offset <;> simp
  | rdb space index => simp [accessRefusal, indexRefusal, Access.wellFormed]
  | wrb space index b => simp [accessRefusal, indexRefusal, Access.wellFormed]
  | wait => simp [accessRefusal, Access.wellFormed]
  | reset => simp [accessRefusal, Access.wellFormed]

/-- A well-formed access is made. -/
theorem hostTurn_wellFormed {a : Access} {s : State} (h : a.wellFormed s.params = true) : hostTurn a s = makeAccess a s := by
  unfold hostTurn
  rw [(accessRefusal_none_iff _ _).mpr h]

/-- An access that is not well-formed is refused. -/
theorem hostTurn_not_wellFormed {a : Access} {s : State} (h : a.wellFormed s.params = false) :
    ∃ why, hostTurn a s = .refused why := by
  have : accessRefusal s.params a ≠ none := by
    rw [Ne, accessRefusal_none_iff, h]; simp
  unfold hostTurn
  cases hr : accessRefusal s.params a with
  | none => exact absurd hr this
  | some why => exact ⟨why, rfl⟩

/-- What a register write can be: a write to `STATUS`, a discarded write, a START, or a store. -/
theorem hostWrite_cases (offset : Nat) (v : Word) (s : State) :
    (regAt offset = .status ∧ hostWrite offset v s = .next (setStatus (statusWrite v s.status) s)) ∨
    (regAt offset ≠ .status ∧ s.status.busy = true ∧ hostWrite offset v s = .next (hazard s)) ∨
    (regAt offset = .cmd ∧ s.status.busy = false ∧ ∃ i, decode v = .command i ∧ hostWrite offset v s = exec i s) ∨
    (regAt offset = .cmd ∧ s.status.busy = false ∧ (∃ why, decode v = .illegal why) ∧
      hostWrite offset v s = .next (raiseError .badOp s)) ∨
    (regAt offset ≠ .cmd ∧ s.status.busy = false ∧ hostWrite offset v s = .next (storeReg (regAt offset) v s)) := by
  unfold hostWrite
  by_cases h1 : regAt offset = .status
  · simp [h1]
  · cases hb : s.status.busy
    · by_cases h2 : regAt offset = .cmd
      · cases hd : decode v with
        | command i => simp [h2, startCommand, hd]
        | illegal why => simp [h2, startCommand, hd]
      · simp [h1, h2]
    · simp [h1]

/-- Only `CMD` has offset 0. -/
theorem regAt_eq_cmd {offset : Nat} (h : regAt offset = .cmd) : offset = 0x00 := by
  unfold regAt at h
  split at h <;> simp at h ⊢

/-- Only `STATUS` has offset 4. -/
theorem regAt_eq_status {offset : Nat} (h : regAt offset = .status) : offset = 0x04 := by
  unfold regAt at h
  split at h <;> simp at h ⊢

/-- The writes that set `HZD` while `BUSY = 1` (R37): to any register but `STATUS`, or to a byte of a buffer. -/
def Access.isHazard : Access → Bool
  | .rd _ => false
  | .wr offset _ => offset != 0x04
  | .rdb _ _ => false
  | .wrb _ _ _ => true
  | .wait => false
  | .reset => false

/-- A write to a register that is not `STATUS` is one of them. -/
theorem isHazard_wr {offset : Nat} (h : regAt offset ≠ .status) (v : Word) : (Access.wr offset v).isHazard = true := by
  rw [Access.isHazard, bne_iff_ne]
  rintro rfl
  exact h rfl

/-- A store to a register changes only a read-write register: everything but `ROUNDS`, `LEN`, the key, the IV and `DIN` stays. -/
theorem storeReg_frame (reg : Reg) (v : Word) (s : State) :
    (storeReg reg v s).params = s.params ∧ (storeReg reg v s).doutHi = s.doutHi ∧ (storeReg reg v s).doutLo = s.doutLo ∧
    (storeReg reg v s).olen = s.olen ∧ (storeReg reg v s).status = s.status ∧ (storeReg reg v s).ibuf = s.ibuf ∧
    (storeReg reg v s).obuf = s.obuf ∧ (storeReg reg v s).eng = s.eng ∧ (storeReg reg v s).host = s.host ∧
    (storeReg reg v s).replies = s.replies ∧ (storeReg reg v s).due = s.due ∧ (storeReg reg v s).draws = s.draws ∧
    (storeReg reg v s).ibufDraw = s.ibufDraw ∧ (storeReg reg v s).obufDraw = s.obufDraw := by
  cases reg <;> simp [storeReg]

/-- A register read changes only the host's record and the count of draws. -/
theorem hostRead_eq (offset : Nat) (s : State) :
    ∃ r n, hostRead offset s = { s with replies := s.replies ++ [r], draws := n } := by
  unfold hostRead
  split
  · exact ⟨_, _, rfl⟩
  · exact ⟨_, s.draws, rfl⟩

/-- A byte read changes only the host's record and the count of draws. -/
theorem hostReadByte_eq (space : Space) (index : Nat) (s : State) :
    ∃ r n, hostReadByte space index s = { s with replies := s.replies ++ [r], draws := n } := by
  unfold hostReadByte
  cases space with
  | ibuf => exact ⟨_, s.draws, rfl⟩
  | obuf =>
    cases s.status.busy
    · exact ⟨_, s.draws, rfl⟩
    · exact ⟨_, _, rfl⟩

/-- Everything an access that is answered by a next state can do. -/
theorem makeAccess_next {a : Access} {s t : State} (h : makeAccess a s = .next t) :
    (∃ r n, t = { s with replies := s.replies ++ [r], draws := n }) ∨
    (∃ v, a = .wr 0x04 v ∧ t = setStatus (statusWrite v s.status) s) ∨
    (s.status.busy = true ∧ a.isHazard = true ∧ t = hazard s) ∨
    (s.status.busy = false ∧ ∃ v i, a = .wr 0x00 v ∧ decode v = .command i ∧ exec i s = .next t) ∨
    (s.status.busy = false ∧ ∃ v why, a = .wr 0x00 v ∧ decode v = .illegal why ∧ t = raiseError .badOp s) ∨
    (s.status.busy = false ∧ ∃ reg v, t = storeReg reg v s) ∨
    (s.status.busy = false ∧ ∃ i b, a = .wrb .ibuf i b ∧ t = storeIbuf i b s) ∨
    (s.status.busy = false ∧ t = s) ∨
    (a = .reset ∧ t = applyReset s) := by
  cases a with
  | rd offset =>
    obtain ⟨r, n, e⟩ := hostRead_eq offset s
    simp only [makeAccess, e] at h
    injection h with h
    exact .inl ⟨r, n, h.symm⟩
  | rdb space index =>
    obtain ⟨r, n, e⟩ := hostReadByte_eq space index s
    simp only [makeAccess, e] at h
    injection h with h
    exact .inl ⟨r, n, h.symm⟩
  | wait =>
    obtain ⟨r, n, e⟩ := hostRead_eq 0x04 s
    simp only [makeAccess, e] at h
    injection h with h
    exact .inl ⟨r, n, h.symm⟩
  | wr offset v =>
    simp only [makeAccess] at h
    rcases hostWrite_cases offset v s with
      ⟨ho, e⟩ | ⟨hn, hb, e⟩ | ⟨ho, hb, i, hd, e⟩ | ⟨ho, hb, ⟨why, hd⟩, e⟩ | ⟨_, hb, e⟩ <;> rw [e] at h
    · injection h with h
      exact .inr (.inl ⟨v, by rw [regAt_eq_status ho], h.symm⟩)
    · injection h with h
      exact .inr (.inr (.inl ⟨hb, isHazard_wr hn v, h.symm⟩))
    · exact .inr (.inr (.inr (.inl ⟨hb, v, i, by rw [regAt_eq_cmd ho], hd, h⟩)))
    · injection h with h
      exact .inr (.inr (.inr (.inr (.inl ⟨hb, v, why, by rw [regAt_eq_cmd ho], hd, h.symm⟩))))
    · injection h with h
      exact .inr (.inr (.inr (.inr (.inr (.inl ⟨hb, _, v, h.symm⟩)))))
  | wrb space index b =>
    simp only [makeAccess, hostWriteByte] at h
    injection h with h
    cases hb : s.status.busy
    · cases space with
      | ibuf => simp only [hb] at h; exact .inr (.inr (.inr (.inr (.inr (.inr (.inl ⟨rfl, index, b, rfl, h.symm⟩))))))
      | obuf => simp only [hb] at h; exact .inr (.inr (.inr (.inr (.inr (.inr (.inr (.inl ⟨rfl, h.symm⟩)))))))
    · simp only [hb] at h
      exact .inr (.inr (.inl ⟨rfl, rfl, h.symm⟩))
  | reset =>
    simp only [makeAccess] at h
    injection h with h
    exact .inr (.inr (.inr (.inr (.inr (.inr (.inr (.inr ⟨rfl, h.symm⟩)))))))

/-- If the host's turn answers a next state, its access was well-formed and was made. -/
theorem hostTurn_next {a : Access} {s t : State} (h : hostTurn a s = .next t) :
    a.wellFormed s.params = true ∧ makeAccess a s = .next t := by
  cases hw : a.wellFormed s.params
  · obtain ⟨why, hr⟩ := hostTurn_not_wellFormed hw
    rw [h] at hr
    cases hr
  · exact ⟨rfl, by rw [← hostTurn_wellFormed hw, h]⟩

end Sys2Proof.Machine
end

