-- ==== Sys2Proof/Laws/Bytes.lean ====
section
/-! SUPPORT. Small laws of the byte and block sequences and of the round loops, which proofs about the modes cite. -/

namespace Sys2Proof.Machine

/-- A sequence of `n` blocks has `8 n` bytes. -/
theorem bytesOf_length (bs : List Block) : (bytesOf bs).length = 8 * bs.length := by
  induction bs with
  | nil => rfl
  | cons b bs ih =>
    simp only [bytesOf, List.flatMap_cons, List.length_append, List.length_cons] at *
    rw [ih, show (bytes8 b).length = 8 from rfl]
    omega

/-- A byte sequence has one block for each eight bytes. -/
theorem blocksOf_length (d : List Byte) : (blocksOf d).length = d.length / 8 := by
  induction d using blocksOf.induct with
  | case1 b0 b1 b2 b3 b4 b5 b6 b7 rest ih =>
    simp only [blocksOf, List.length_cons, ih]
    omega
  | case2 d h =>
    have : d.length < 8 := by
      rcases d with _ | ⟨a, _ | ⟨b, _ | ⟨c, _ | ⟨e, _ | ⟨f, _ | ⟨g, _ | ⟨i, _ | ⟨j, d⟩⟩⟩⟩⟩⟩⟩⟩ <;> simp
      exact absurd rfl (h _ _ _ _ _ _ _ _ _)
    rw [blocksOf]
    · simp; omega
    · exact h

/-- The chain of CBC encryption has one ciphertext block for each plaintext block. -/
@[simp] theorem cbcEncryptBlocks_length (k : Key) (prev : Block) (ps : List Block) :
    (cbcEncryptBlocks k prev ps).length = ps.length := by
  induction ps generalizing prev with
  | nil => rfl
  | cons p ps ih => simp [cbcEncryptBlocks, ih]

/-- The chain of CBC decryption has one plaintext block for each ciphertext block. -/
@[simp] theorem cbcDecryptBlocks_length (k : Key) (prev : Block) (cs : List Block) :
    (cbcDecryptBlocks k prev cs).length = cs.length := by
  induction cs generalizing prev with
  | nil => rfl
  | cons c cs ih => simp [cbcDecryptBlocks, ih]

/-- Where R162 defines `cbc_decrypt`, it is the algorithm on the blocks. -/
theorem cbcDecrypt_of_whole {d : List Byte} (h : d.length % 8 = 0) (k : Key) :
    cbcDecrypt d k = cbcDecryptWhole k (blocksOf d) := if_pos h

/-- Elsewhere it is the free value. -/
theorem cbcDecrypt_of_ragged {d : List Byte} (h : d.length % 8 ≠ 0) (k : Key) :
    cbcDecrypt d k = Config.raggedCbcDecrypt d k.k0 k.k1 k.k2 k.k3 := if_neg h

/-- An IV and ciphertext blocks decrypt to the chain of the ciphertext. -/
@[simp] theorem cbcDecryptWhole_cons (k : Key) (iv : Block) (cs : List Block) :
    cbcDecryptWhole k (iv :: cs) = bytesOf (cbcDecryptBlocks k iv cs) := rfl

/-- No block decrypts to nothing (R170). -/
@[simp] theorem cbcDecryptWhole_nil (k : Key) : cbcDecryptWhole k [] = [] := rfl

/-- The last of `n + 1` encryption rounds. -/
theorem encRounds_succ_last (k : Key) (n : Nat) (w : Work) : encRounds k (n + 1) w = encRound k (encRounds k n w) := by
  induction n generalizing w with
  | zero => rfl
  | succ n ih => rw [encRounds, ih]; rfl

/-- The last of `n + 1` decryption rounds. -/
theorem decRounds_succ_last (k : Key) (n : Nat) (w : Work) : decRounds k (n + 1) w = decRound k (decRounds k n w) := by
  induction n generalizing w with
  | zero => rfl
  | succ n ih => rw [decRounds, ih]; rfl

/-- Two byte sequences written one after the other are their concatenation written at once. -/
theorem Memory.writeBytes_append (m : Memory) (a : Nat) (xs ys : List Byte) :
    m.writeBytes a (xs ++ ys) = (m.writeBytes a xs).writeBytes (a + xs.length) ys := by
  induction xs generalizing m a with
  | nil => rfl
  | cons x xs ih =>
    simp only [List.cons_append, Memory.writeBytes, ih, List.length_cons]
    congr 1
    omega

end Sys2Proof.Machine
end

