-- ==== Sys2Proof/Machine/HostNotation.lean ====
section
/-! DEFINITION. The host notation: `start`, the expansions of TEADOC's calls into host accesses, and the results that the calls
give (spec/30_encoding.md R100 to R102). A call is a list of accesses for `State.host`, and its result is formed from the
values that the host's reads returned, `State.replies`. -/

namespace Sys2Proof.Machine

/-! ### The expansions -/

/-- `start MNEMONIC` is `wr CMD, encode(MNEMONIC)` (R100). -/
def startAccess (i : Instr) : Access := .wr 0x00 (encode i)

/-- The key writes of R102. -/
def keyWrites (k : Key) : List Access := [.wr 0x20 k.k0, .wr 0x24 k.k1, .wr 0x28 k.k2, .wr 0x2C k.k3]

/-- `wrb IBUF[i], d[i]` for the bytes of `d`, from an index on, and nothing else. -/
def bufferWrites : Nat → List Byte → List Access
  | _, [] => []
  | i, b :: bs => .wrb .ibuf i b :: bufferWrites (i + 1) bs

/-- The writes of a block call (R102): the key, `ROUNDS`, and `DIN` as `hi(b)` and `lo(b)`. -/
def blockWrites (b : Block) (k : Key) (r : Word) : List Access :=
  keyWrites k ++ [.wr 0x08 r, .wr 0x40 (leftHalf b), .wr 0x44 (rightHalf b)]

/-- The buffer and `LEN` writes of R102, for a byte sequence of at most `MAXLEN` bytes. -/
def dataWrites (d : List Byte) : List Access := bufferWrites 0 d ++ [.wr 0x0C (BitVec.ofNat 32 d.length)]

/-- The IV writes of R102: `hi(be64(iv))` and `lo(be64(iv))` of an 8-byte buffer. -/
def ivWrites (iv : Vector Byte 8) : List Access :=
  [.wr 0x30 (leftHalf (be64Buffer iv)), .wr 0x34 (rightHalf (be64Buffer iv))]

/-- `encrypt_block(b, k, r)` of R102. -/
def encryptBlockCall (b : Block) (k : Key) (r : Word) : List Access := blockWrites b k r ++ [startAccess .encBlk, .wait]

/-- `encrypt_block(b, k)` of R102: the same with `wr ROUNDS, 32`. -/
def encryptBlockDefaultCall (b : Block) (k : Key) : List Access :=
  encryptBlockCall b k (BitVec.ofNat 32 Config.defaultRounds)

/-- `decrypt_block(b, k, r)` of R102. -/
def decryptBlockCall (b : Block) (k : Key) (r : Word) : List Access := blockWrites b k r ++ [startAccess .decBlk, .wait]

/-- `decrypt_block(b, k)` of R102: the same with `wr ROUNDS, 32`. -/
def decryptBlockDefaultCall (b : Block) (k : Key) : List Access :=
  decryptBlockCall b k (BitVec.ofNat 32 Config.defaultRounds)

/-- `ecb_transform(d, k, encrypt)` of R102. -/
def ecbEncryptCall (d : List Byte) (k : Key) : List Access := keyWrites k ++ dataWrites d ++ [startAccess .ecbEnc, .wait]

/-- `ecb_transform(d, k, decrypt)` of R102. -/
def ecbDecryptCall (d : List Byte) (k : Key) : List Access := keyWrites k ++ dataWrites d ++ [startAccess .ecbDec, .wait]

/-- `cbc_encrypt(d, k, iv)` of R102, `iv` the 8-byte buffer of TEADOC. -/
def cbcEncryptCall (d : List Byte) (k : Key) (iv : Vector Byte 8) : List Access :=
  keyWrites k ++ ivWrites iv ++ dataWrites d ++ [startAccess .cbcEnc, .wait]

/-- `cbc_decrypt(d, k)` of R102. -/
def cbcDecryptCall (d : List Byte) (k : Key) : List Access := keyWrites k ++ dataWrites d ++ [startAccess .cbcDec, .wait]

/-! ### The results -/

/-- The reads that give a block call's result (R102): `rd DOUT_HI`, `rd DOUT_LO`. -/
def blockResultReads : List Access := [.rd 0x48, .rd 0x4C]

/-- `rd DOUT_HI * 2^32 + rd DOUT_LO` (R102), from what these two reads returned. -/
def blockResult : List Reply → Option Block
  | [.word 0x48 hi, .word 0x4C lo] => some (join hi lo)
  | _ => none

/-- The read that says how many bytes a buffer call's result has (R102): `rd OLEN`. -/
def lengthReads : List Access := [.rd 0x10]

/-- What `rd OLEN` returned. -/
def lengthResult : List Reply → Option Word
  | [.word 0x10 olen] => some olen
  | _ => none

/-- `rdb OBUF[i]` for `i = 0 .. olen - 1` (R102), where `olen` is what `rd OLEN` returned. -/
def bufferResultReads (olen : Word) : List Access := (List.range olen.toNat).map (Access.rdb .obuf)

/-- The byte sequence that reads of `OBUF` in index order, from an index on, returned. -/
def bufferResult : Nat → List Reply → Option (List Byte)
  | _, [] => some []
  | i, .byte .obuf j b :: rest => if j = i then (bufferResult (i + 1) rest).map (b :: ·) else none
  | _, _ => none

/-! ### A host that makes a call

The host chooses its next accesses from what it has read (the reads of `OBUF` from `rd OLEN`), so a call is a few lists of
accesses, one after the other. -/

/-- The host makes its accesses and the machine moves until they are made and the engine idles: a step for each access and for
each completion there can be, one for each access and one for a command already running. -/
def afterAccesses (accesses : List Access) (s : State) : Option State :=
  match Sys2Proof.core.run (2 * accesses.length + 1) { s with host := accesses } with
  | .next t => some t
  | .fault _ => none
  | .refused _ => none

/-- What the host read between two states. -/
def repliesSince (s t : State) : List Reply := t.replies.drop s.replies.length

/-- What the `wait` at the end of a call read from `STATUS`. -/
def waitResult (s t : State) : Option Word :=
  match (repliesSince s t).getLast? with
  | some (.word 0x04 v) => some v
  | _ => none

/-- The state after a call, if the host then finds `STATUS.DONE = 1` (R102). -/
def afterCall (call : List Access) (s : State) : Option State := do
  let t ← afterAccesses call s
  let status ← waitResult s t
  if status.getLsbD 1 then some t else none

/-- The error code of a call that was rejected (R102): `ECODE`, if the host finds `STATUS.ERR = 1` after `wait`. -/
def callRejected (call : List Access) (s : State) : Option (BitVec 4) := do
  let t ← afterAccesses call s
  let status ← waitResult s t
  if status.getLsbD 2 then some (status.extractLsb' 4 4) else none

/-- The result of a block call (R102). -/
def blockCall (call : List Access) (s : State) : Option Block := do
  let t ← afterCall call s
  let u ← afterAccesses blockResultReads t
  blockResult (repliesSince t u)

/-- The result of a buffer call (R102): the reads of `OBUF` are those that the value of `rd OLEN` asks for. -/
def bufferCall (call : List Access) (s : State) : Option (List Byte) := do
  let t ← afterCall call s
  let u ← afterAccesses lengthReads t
  let olen ← lengthResult (repliesSince t u)
  let v ← afterAccesses (bufferResultReads olen) u
  bufferResult 0 (repliesSince u v)

end Sys2Proof.Machine
end

