-- ==== Sys2Proof/Laws/Calls.lean ====
section
/-! SUPPORT. The expansions of spec/30_encoding.md R102 give what TEADOC's calls give: the run of each list of accesses, from any
idle state, ends in the result of the pure function (R11). -/

namespace Sys2Proof.Machine

/-! ### Runs -/

/-- The state with the host's list and the count of log 3 replaced: all that a run carries along beside the block's state. -/
def withHost (accesses : List Access) (due : Nat) (s : State) : State := { s with host := accesses, due := due }

/-- The first step of a run, in the host's terms. -/
theorem core_run_succ {s t : Sys2Proof.core.State} (h : Sys2Proof.core.step s = .next t) (n : Nat) :
    Sys2Proof.core.run (n + 1) s = Sys2Proof.core.run n t := by
  rw [Host.Core.run, h]

/-- The first step of a run. -/
theorem run_succ {s t : State} (h : step s = .next t) (n : Nat) : Sys2Proof.core.run (n + 1) s = Sys2Proof.core.run n t :=
  core_run_succ h n

/-- An idle block with no host access pending stays as it is (R220). -/
theorem run_idle {s : State} (hb : s.status.busy = false) (hh : s.host = []) (n : Nat) :
    Sys2Proof.core.run n s = .next s := by
  have hs : step s = .next s := by simp [step, nextStep, hb, hh]
  induction n with
  | zero => rfl
  | succ n ih => rw [run_succ hs, ih]

/-- One access of the host to an idle block. -/
theorem run_access {a : Access} {rest : List Access} {s t : State} (hb : s.status.busy = false)
    (hw : a.wellFormed s.params = true) (h : ∀ d, makeAccess a (withHost rest d s) = .next (withHost rest d t))
    (due n : Nat) :
    Sys2Proof.core.run (n + 1) (withHost (a :: rest) due s) = Sys2Proof.core.run n (withHost rest (due - 1) t) := by
  have hs : step (withHost (a :: rest) due s) = .next (withHost rest (due - 1) t) := by
    rw [step_host (s := withHost (a :: rest) due s) (a := a) (rest := rest) ⟨rfl, .inl hb⟩, 
      hostTurn_wellFormed (s := takeAccess rest (withHost (a :: rest) due s)) hw]
    exact h (due - 1)
  exact run_succ hs n

/-! ### Writes -/

/-- An offset whose register a host write stores to. -/
def isStored (offset : Nat) : Bool :=
  offsetAligned offset && offsetInSpace offset && regAt offset != .cmd && regAt offset != .status

/-- Writes whose offsets are all stored to. -/
theorem isStored_of_offsets {ws : List (Nat × Word)} {offsets : List Nat} (h : ws.map Prod.fst = offsets)
    (ho : ∀ o ∈ offsets, isStored o = true) : ∀ w ∈ ws, isStored w.1 = true :=
  fun _ hw => ho _ (h ▸ List.mem_map_of_mem hw)

/-- The state after register writes. -/
def storeRegs (ws : List (Nat × Word)) (s : State) : State := ws.foldl (fun t w => storeReg (regAt w.1) w.2 t) s

/-- A store commutes with the host's list. -/
theorem storeReg_withHost (reg : Reg) (v : Word) (as : List Access) (d : Nat) (s : State) :
    storeReg reg v (withHost as d s) = withHost as d (storeReg reg v s) := by
  cases reg <;> rfl

/-- Register writes to an idle block, one after the other. -/
theorem run_regWrites (ws : List (Nat × Word)) (rest : List Access) {s : State} (hb : s.status.busy = false)
    (hw : ∀ w ∈ ws, isStored w.1 = true) (due : Nat) :
    ∃ due', ∀ n, Sys2Proof.core.run (ws.length + n) (withHost (ws.map (fun w => Access.wr w.1 w.2) ++ rest) due s) =
      Sys2Proof.core.run n (withHost rest due' (storeRegs ws s)) := by
  induction ws generalizing s due with
  | nil => exact ⟨due, fun n => by rw [List.length_nil, Nat.zero_add]; rfl⟩
  | cons w ws ih =>
    have h := hw w List.mem_cons_self
    simp only [isStored, Bool.and_eq_true, bne_iff_ne] at h
    obtain ⟨⟨⟨h1, h2⟩, hc⟩, hs⟩ := h
    have hf := (storeReg_frame (regAt w.1) w.2 s).2.2.2.2.1
    obtain ⟨due', ih⟩ := ih (s := storeReg (regAt w.1) w.2 s) (by rw [hf]; exact hb)
      (fun x hx => hw x (List.mem_cons_of_mem _ hx)) (due - 1)
    refine ⟨due', fun n => Eq.trans ?_ (ih n)⟩
    have hlen : (w :: ws).length + n = (ws.length + n) + 1 := by rw [List.length_cons]; omega
    rw [hlen, List.map_cons, List.cons_append]
    refine run_access hb (by simp [Access.wellFormed, h1, h2]) (fun d => ?_) due _
    have hbd : (withHost (ws.map (fun w => Access.wr w.1 w.2) ++ rest) d s).status.busy = false := hb
    simp only [makeAccess, hostWrite, hbd, Bool.false_eq_true, if_false, if_neg hs, if_neg hc, storeReg_withHost]

/-- The state after the writes of `IBUF`. -/
def storeBytes (i : Nat) (d : List Byte) (s : State) : State := { s with ibuf := s.ibuf.writeBytes i d }

/-- Byte writes of `IBUF` to an idle block, one after the other. -/
theorem run_bufferWrites (d : List Byte) (i : Nat) (rest : List Access) {s : State} (hb : s.status.busy = false)
    (hl : i + d.length ≤ s.params.maxlen.val) (due : Nat) :
    ∃ due', ∀ n, Sys2Proof.core.run (d.length + n) (withHost (bufferWrites i d ++ rest) due s) =
      Sys2Proof.core.run n (withHost rest due' (storeBytes i d s)) := by
  induction d generalizing s i due with
  | nil => exact ⟨due, fun n => by rw [List.length_nil, Nat.zero_add]; rfl⟩
  | cons b d ih =>
    rw [List.length_cons] at hl
    obtain ⟨due', ih⟩ := ih (i := i + 1) (s := storeIbuf i b s) hb (by show i + 1 + d.length ≤ s.params.maxlen.val; omega) (due - 1)
    refine ⟨due', fun n => Eq.trans ?_ (ih n)⟩
    have hlen : (b :: d).length + n = (d.length + n) + 1 := by rw [List.length_cons]; omega
    rw [hlen, bufferWrites, List.cons_append]
    have hi : i < s.params.maxlen.val := by omega
    refine run_access hb (by simpa [Access.wellFormed, Space.size] using hi) (fun q => ?_) due _
    have hbd : (withHost (bufferWrites (i + 1) d ++ rest) q s).status.busy = false := hb
    simp only [makeAccess, hostWriteByte, hbd]
    rfl

/-! ### Reads -/

/-- A read of a register or of a buffer byte. -/
def isRead : Access → Bool
  | .rd _ => true
  | .rdb _ _ => true
  | .wr _ _ => false
  | .wrb _ _ _ => false
  | .wait => false
  | .reset => false

/-- What a read of an idle block returns. -/
def readValue (s : State) : Access → Reply
  | .rd offset => .word offset (regValue s (regAt offset))
  | .rdb .ibuf i => .byte .ibuf i (readIbuf s i)
  | .rdb .obuf i => .byte .obuf i (readObuf s i)
  | .wr _ _ => .word 0x04 (statusWord s.status)
  | .wrb _ _ _ => .word 0x04 (statusWord s.status)
  | .wait => .word 0x04 (statusWord s.status)
  | .reset => .word 0x04 (statusWord s.status)

/-- The state with the host's record continued. -/
def recorded (rs : List Reply) (s : State) : State := { s with replies := s.replies ++ rs }

/-- One read of an idle block. -/
theorem makeAccess_read {a : Access} (ha : isRead a = true) {s : State} (hb : s.status.busy = false) (as : List Access) (d : Nat) :
    makeAccess a (withHost as d s) = .next (withHost as d (recorded [readValue s a] s)) := by
  have hbd : (withHost as d s).status.busy = false := hb
  cases a with
  | rd offset =>
    have hv : regValue (withHost as d s) (regAt offset) = regValue s (regAt offset) := by cases regAt offset <;> rfl
    simp only [makeAccess, hostRead, hbd, Bool.false_and, Bool.false_eq_true, if_false, hv]
    rfl
  | rdb space i => cases space <;> simp only [makeAccess, hostReadByte, hbd] <;> rfl
  | wr offset v => cases ha
  | wrb space i b => cases ha
  | wait => cases ha
  | reset => cases ha

/-- A later read returns the same. -/
theorem readValue_recorded (rs : List Reply) (s : State) (a : Access) : readValue (recorded rs s) a = readValue s a := by
  cases a with
  | rd offset => simp only [readValue]; cases regAt offset <;> rfl
  | rdb space i => cases space <;> rfl
  | wr offset v => rfl
  | wrb space i b => rfl
  | wait => rfl
  | reset => rfl

/-- Reads of an idle block, one after the other, and nothing else. -/
theorem run_reads (as : List Access) {s : State} (hb : s.status.busy = false) (ha : ∀ a ∈ as, isRead a = true)
    (hw : ∀ a ∈ as, a.wellFormed s.params = true) (due : Nat) :
    ∃ due', ∀ n, Sys2Proof.core.run (as.length + n) (withHost as due s) =
      Sys2Proof.core.run n (withHost [] due' (recorded (as.map (readValue s)) s)) := by
  induction as generalizing s due with
  | nil => exact ⟨due, fun n => by simp [recorded]⟩
  | cons a as ih =>
    obtain ⟨due', ih⟩ := ih (s := recorded [readValue s a] s) hb (fun x hx => ha x (List.mem_cons_of_mem _ hx))
      (fun x hx => hw x (List.mem_cons_of_mem _ hx)) (due - 1)
    refine ⟨due', fun n => Eq.trans ?_ ((ih n).trans ?_)⟩
    · have hlen : (a :: as).length + n = (as.length + n) + 1 := by rw [List.length_cons]; omega
      rw [hlen]
      exact run_access hb (hw a List.mem_cons_self) (makeAccess_read (ha a List.mem_cons_self) hb as) due _
    · have hm : as.map (readValue (recorded [readValue s a] s)) = as.map (readValue s) :=
        List.map_congr_left fun x _ => readValue_recorded _ s x
      rw [hm]
      simp [recorded, withHost]

/-! ### START and wait -/

/-- The pseudocode commutes with the host's list. -/
theorem runOf_withHost (i : Instr) (as : List Access) (d : Nat) (s : State) :
    runOf i (withHost as d s) = withHost as d (runOf i s) := by
  have hd : bytesOperand (withHost as d s) = bytesOperand s := by
    simp only [bytesOperand, readIbufBytes_eq]
    rfl
  cases i with
  | encBlk => rfl
  | decBlk => rfl
  | ecbEnc => simp only [runOf, runEcb, hd]; rfl
  | ecbDec => simp only [runOf, runEcb, hd]; rfl
  | cbcEnc => simp only [runOf, runCbcEnc, hd]; rfl
  | cbcDec => simp only [runOf, runCbcDec, hd]; rfl

/-- The state a command leaves, from its START to its completion (R185, R186). -/
def commandResult (i : Instr) (s : State) : State := complete (runOf i (acceptStart i.opcode s))

/-- `start` and `wait` on an idle block in which the START is accepted. -/
theorem run_start_wait (i : Instr) {s : State} (hb : s.status.busy = false) (he : startError i s = none) (due : Nat) :
    ∃ due', ∀ n, Sys2Proof.core.run (n + 3) (withHost [startAccess i, .wait] due s) =
      Sys2Proof.core.run n
        (withHost [] due' (recorded [.word 0x04 (statusWord (commandResult i s).status)] (commandResult i s))) := by
  have hdec : decode (encode i) = .command i := by cases i <;> decide
  have hop : decodeOpcode i.opcode = .command i := by cases i <;> decide
  have h1 : step (withHost [startAccess i, .wait] due s) =
      .next (withHost [.wait] (Config.latency s.draws) (acceptStart i.opcode s)) := by
    rw [step_host (s := withHost [startAccess i, .wait] due s) (a := startAccess i) (rest := [.wait]) ⟨rfl, .inl hb⟩,
      hostTurn_wellFormed (s := takeAccess _ _) rfl]
    have hS : takeAccess [.wait] (withHost [startAccess i, .wait] due s) = withHost [.wait] (due - 1) s := rfl
    have hbd : (withHost [.wait] (due - 1) s).status.busy = false := hb
    have hed : startError i (withHost [.wait] (due - 1) s) = none := (startError_congr i rfl rfl).trans he
    rw [hS]
    simp only [startAccess, makeAccess, hostWrite, regAt, startCommand, hdec, hbd, reduceCtorEq, Bool.false_eq_true, if_false,
      if_true]
    rw [exec_eq_command, command_accepted hbd hed]
    rfl
  have hb2 : (withHost [.wait] (Config.latency s.draws) (acceptStart i.opcode s)).status.busy = true := rfl
  have h2 : step (withHost [.wait] (Config.latency s.draws) (acceptStart i.opcode s)) =
      .next (withHost [.wait] (Config.latency s.draws) (commandResult i s)) := by
    rw [step_engine ⟨hb2, .inr (.inr ⟨[], rfl⟩)⟩, engineTurn]
    have ho : decodeOpcode (withHost [.wait] (Config.latency s.draws) (acceptStart i.opcode s)).eng.op = .command i :=
      hop
    have hed : startError i (withHost [.wait] (Config.latency s.draws) (acceptStart i.opcode s)) = none :=
      (startError_congr i rfl rfl).trans he
    rw [ho]
    simp only
    rw [exec_eq_command, command_completes hb2 hed, runOf_withHost]
    rfl
  have hb3 : (commandResult i s).status.busy = false := rfl
  refine ⟨Config.latency s.draws - 1, fun n => ?_⟩
  rw [run_succ h1 (n + 2), run_succ h2 (n + 1)]
  refine run_access hb3 rfl (fun d => ?_) _ n
  have hbd : (withHost [] d (commandResult i s)).status.busy = false := hb3
  simp only [makeAccess, hostRead, hbd, Bool.false_and, Bool.false_eq_true, if_false]
  rfl

/-! ### A call up to its `wait` -/

/-- Register writes as accesses. -/
def regWrites (ws : List (Nat × Word)) : List Access := ws.map fun w => .wr w.1 w.2

/-- The state a call has prepared before `start`. -/
def prepared (ws : List (Nat × Word)) (d : List Byte) (vs : List (Nat × Word)) (s : State) : State :=
  storeRegs vs (storeBytes 0 d (storeRegs ws s))

/-- Register writes leave the configuration, `STATUS` and the host's record alone. -/
theorem storeRegs_frame (ws : List (Nat × Word)) (s : State) :
    (storeRegs ws s).params = s.params ∧ (storeRegs ws s).status = s.status ∧ (storeRegs ws s).replies = s.replies := by
  induction ws generalizing s with
  | nil => exact ⟨rfl, rfl, rfl⟩
  | cons w ws ih =>
    obtain ⟨h1, h2, h3⟩ := ih (storeReg (regAt w.1) w.2 s)
    obtain ⟨f1, _, _, _, f5, _, _, _, _, f10, _⟩ := storeReg_frame (regAt w.1) w.2 s
    exact ⟨h1.trans f1, h2.trans f5, h3.trans f10⟩

/-- So does all the set-up of a call. -/
theorem prepared_frame (ws : List (Nat × Word)) (d : List Byte) (vs : List (Nat × Word)) (s : State) :
    (prepared ws d vs s).params = s.params ∧ (prepared ws d vs s).status = s.status ∧
      (prepared ws d vs s).replies = s.replies := by
  obtain ⟨h1, h2, h3⟩ := storeRegs_frame ws s
  obtain ⟨g1, g2, g3⟩ := storeRegs_frame vs (storeBytes 0 d (storeRegs ws s))
  exact ⟨g1.trans h1, g2.trans h2, g3.trans h3⟩

/-- A command leaves the host's record and the configuration alone, and ends with `BUSY = 0` and `DONE = 1`. -/
theorem commandResult_frame (i : Instr) (s : State) :
    (commandResult i s).replies = s.replies ∧ (commandResult i s).params = s.params ∧
      (commandResult i s).status.busy = false ∧ (commandResult i s).status.done = true := by
  have hr : ∀ u : State, (runOf i u).replies = u.replies ∧ (runOf i u).params = u.params := by
    intro u
    cases hi : isBlockCommand i
    · obtain ⟨e, h⟩ := runOf_buffer hi u
      rw [h]
      exact ⟨rfl, rfl⟩
    · obtain ⟨v, e, h⟩ := runOf_block hi u
      rw [h]
      exact ⟨rfl, rfl⟩
  exact ⟨(hr _).1, (hr _).2, rfl, rfl⟩

/-- `DONE` is bit 1 of `STATUS` (R33). -/
theorem statusWord_done (t : Status) : (statusWord t).getLsbD 1 = t.done := by
  obtain ⟨busy, done, err, hzd, ecode⟩ := t
  cases busy <;> cases done <;> cases err <;> cases hzd <;> simp [statusWord] <;> decide +revert

/-- What is read between two states, when the record of one continues that of the other. -/
theorem repliesSince_of_eq {s t : State} {rs : List Reply} (h : t.replies = s.replies ++ rs) : repliesSince s t = rs := by
  rw [repliesSince, h, List.drop_left]

/-- A run of enough steps that ends with the host's list empty is what `afterAccesses` answers. -/
theorem afterAccesses_eq {as : List Access} {s t : State} {m : Nat} (hm : m ≤ 2 * as.length + 1)
    (hr : ∀ n, Sys2Proof.core.run (m + n) (withHost as s.due s) = Sys2Proof.core.run n t) (hb : t.status.busy = false)
    (hh : t.host = []) : afterAccesses as s = some t := by
  have h := hr (2 * as.length + 1 - m)
  rw [show m + (2 * as.length + 1 - m) = 2 * as.length + 1 by omega, run_idle hb hh] at h
  unfold afterAccesses
  rw [show ({ s with host := as } : State) = withHost as s.due s from rfl, h]

/-- The length of the byte writes of a call. -/
@[simp] theorem bufferWrites_length (j : Nat) (d : List Byte) : (bufferWrites j d).length = d.length := by
  induction d generalizing j with
  | nil => rfl
  | cons b d ih => simp [bufferWrites, ih]

/-- The set-up of a call, before its `start`. -/
theorem run_setup (ws : List (Nat × Word)) (d : List Byte) (vs : List (Nat × Word)) (rest : List Access) {s : State}
    (hb : s.status.busy = false) (hws : ∀ w ∈ ws, isStored w.1 = true) (hvs : ∀ w ∈ vs, isStored w.1 = true)
    (hd : d.length ≤ s.params.maxlen.val) (due : Nat) :
    ∃ due', ∀ n, Sys2Proof.core.run (ws.length + d.length + vs.length + n)
      (withHost (regWrites ws ++ (bufferWrites 0 d ++ (regWrites vs ++ rest))) due s) =
      Sys2Proof.core.run n (withHost rest due' (prepared ws d vs s)) := by
  obtain ⟨w1, w2, _⟩ := storeRegs_frame ws s
  obtain ⟨d1, h1⟩ := run_regWrites ws (bufferWrites 0 d ++ (regWrites vs ++ rest)) hb hws due
  have hb1 : (storeRegs ws s).status.busy = false := by rw [w2]; exact hb
  obtain ⟨d2, h2⟩ := run_bufferWrites d 0 (regWrites vs ++ rest) hb1 (by rw [w1]; omega) d1
  obtain ⟨d3, h3⟩ := run_regWrites vs rest (s := storeBytes 0 d (storeRegs ws s)) hb1 hvs d2
  refine ⟨d3, fun n => ?_⟩
  rw [show ws.length + d.length + vs.length + n = ws.length + (d.length + (vs.length + n)) by omega]
  exact (h1 _).trans ((h2 _).trans (h3 n))

/-- The state in which the host has read `DONE` after the `wait` of a call. -/
def waited (i : Instr) (due : Nat) (s : State) : State :=
  withHost [] due (recorded [.word 0x04 (statusWord (commandResult i s).status)] (commandResult i s))

/-- A call whose START is accepted, up to its `wait`: the host finds `DONE = 1`. -/
theorem afterCall_eq (i : Instr) (ws : List (Nat × Word)) (d : List Byte) (vs : List (Nat × Word)) {s : State}
    (hb : s.status.busy = false) (hws : ∀ w ∈ ws, isStored w.1 = true) (hvs : ∀ w ∈ vs, isStored w.1 = true)
    (hd : d.length ≤ s.params.maxlen.val) (he : startError i (prepared ws d vs s) = none) :
    ∃ due, afterCall (regWrites ws ++ (bufferWrites 0 d ++ (regWrites vs ++ [startAccess i, .wait]))) s =
      some (waited i due (prepared ws d vs s)) := by
  obtain ⟨_, p2, p3⟩ := prepared_frame ws d vs s
  obtain ⟨c1, _, _, c4⟩ := commandResult_frame i (prepared ws d vs s)
  obtain ⟨d1, h1⟩ := run_setup ws d vs [startAccess i, .wait] hb hws hvs hd s.due
  obtain ⟨due, h2⟩ := run_start_wait i (s := prepared ws d vs s) (by rw [p2]; exact hb) he d1
  refine ⟨due, ?_⟩
  have ha := afterAccesses_eq (as := regWrites ws ++ (bufferWrites 0 d ++ (regWrites vs ++ [startAccess i, .wait])))
    (t := waited i due (prepared ws d vs s)) (m := ws.length + d.length + vs.length + 3)
    (by simp [regWrites]; omega)
    (fun n => by
      rw [show ws.length + d.length + vs.length + 3 + n = ws.length + d.length + vs.length + (n + 3) by omega]
      exact (h1 _).trans (h2 n)) rfl rfl
  have hw : waitResult s (waited i due (prepared ws d vs s)) =
      some (statusWord (commandResult i (prepared ws d vs s)).status) := by
    have hr : (waited i due (prepared ws d vs s)).replies =
        s.replies ++ [.word 0x04 (statusWord (commandResult i (prepared ws d vs s)).status)] := by
      rw [← p3, ← c1]
      rfl
    rw [waitResult, repliesSince_of_eq hr]
    rfl
  simp only [afterCall, ha, hw, bind, Option.bind, statusWord_done, c4, if_true]

/-! ### The results -/

/-- Reads of an idle block give the host what the block holds, and change nothing that a later read returns. -/
theorem afterAccesses_reads (as : List Access) {s : State} (hb : s.status.busy = false) (ha : ∀ a ∈ as, isRead a = true)
    (hw : ∀ a ∈ as, a.wellFormed s.params = true) :
    ∃ t, afterAccesses as s = some t ∧ repliesSince s t = as.map (readValue s) ∧ t.status = s.status ∧
      t.params = s.params ∧ ∀ a, readValue t a = readValue s a := by
  obtain ⟨due, hr⟩ := run_reads as hb ha hw s.due
  refine ⟨withHost [] due (recorded (as.map (readValue s)) s), afterAccesses_eq (by omega) hr hb rfl, repliesSince_of_eq rfl,
    rfl, rfl, fun a => Eq.trans ?_ (readValue_recorded (as.map (readValue s)) s a)⟩
  cases a with
  | rd offset => simp only [readValue]; cases regAt offset <;> rfl
  | rdb space i => cases space <;> rfl
  | wr offset v => rfl
  | wrb space i b => rfl
  | wait => rfl
  | reset => rfl

/-- The result of a block call is what the command leaves in `DOUT`. -/
theorem blockCall_eq {i : Instr} (hi : isBlockCommand i = true) (b : Block) (k : Key) (r : Word) {s : State}
    (hb : s.status.busy = false) :
    ∃ u, prepared [(0x20, k.k0), (0x24, k.k1), (0x28, k.k2), (0x2C, k.k3), (0x08, r), (0x40, leftHalf b), (0x44, rightHalf b)]
        [] [] s = u ∧
      blockCall (blockWrites b k r ++ [startAccess i, .wait]) s =
        some (join (commandResult i u).doutHi (commandResult i u).doutLo) := by
  refine ⟨_, rfl, ?_⟩
  generalize hws : [((0x20 : Nat), k.k0), (0x24, k.k1), (0x28, k.k2), (0x2C, k.k3), (0x08, r), (0x40, leftHalf b),
    (0x44, rightHalf b)] = ws
  have hstored := isStored_of_offsets (ws := ws) (offsets := [0x20, 0x24, 0x28, 0x2C, 0x08, 0x40, 0x44]) (by rw [← hws]; rfl)
    (by decide)
  have he : startError i (prepared ws [] [] s) = none := by cases i <;> first | rfl | cases hi
  obtain ⟨due, hc⟩ := afterCall_eq i ws [] [] hb hstored (fun w hw => by cases hw) (Nat.zero_le _) he
  have hlist : regWrites ws ++ (bufferWrites 0 [] ++ (regWrites [] ++ [startAccess i, Access.wait])) =
      blockWrites b k r ++ [startAccess i, .wait] := by rw [← hws]; rfl
  rw [hlist] at hc
  obtain ⟨t, ht, hrep, _⟩ := afterAccesses_reads blockResultReads (s := waited i due (prepared ws [] [] s)) rfl
    (by decide) (by intro a ha; simp only [blockResultReads, List.mem_cons, List.not_mem_nil, or_false] at ha; rcases ha with rfl | rfl <;> rfl)
  simp only [blockCall, hc, ht, bind, Option.bind, hrep]
  rfl

/-- Splitting a block and joining the halves gives it back. -/
theorem join_leftHalf_rightHalf (b : Block) : join (leftHalf b) (rightHalf b) = b := by
  unfold join leftHalf rightHalf
  ext i hi
  simp only [BitVec.getElem_append, BitVec.getElem_extractLsb']
  split
  · simp [BitVec.getLsbD_eq_getElem hi]
  · rename_i h
    rw [show 32 + (i - 32) = i by omega]
    simp [BitVec.getLsbD_eq_getElem hi]

/-- R102: the call `encrypt_block(b, k, r)` gives `encrypt_block` of R120, from every idle state. -/
theorem encryptBlockCall_result (b : Block) (k : Key) (r : Word) {s : State} (hb : s.status.busy = false) :
    blockCall (encryptBlockCall b k r) s = some (encryptBlock b k r.toNat) := by
  obtain ⟨u, hu, h⟩ := blockCall_eq (i := .encBlk) rfl b k r hb
  rw [encryptBlockCall, h]
  have hx : blockOperand u = b := by rw [← hu]; exact join_leftHalf_rightHalf b
  have hk : keyOperand u = k := by rw [← hu]; rfl
  have hr : roundsOperand u = r.toNat := by rw [← hu]; rfl
  have hd : join (commandResult .encBlk u).doutHi (commandResult .encBlk u).doutLo =
      encryptBlock (blockOperand u) (keyOperand u) (roundsOperand u) := join_leftHalf_rightHalf _
  rw [hd, hx, hk, hr]

/-- R102: the call `decrypt_block(b, k, r)` gives `decrypt_block` of R121, from every idle state. -/
theorem decryptBlockCall_result (b : Block) (k : Key) (r : Word) {s : State} (hb : s.status.busy = false) :
    blockCall (decryptBlockCall b k r) s = some (decryptBlock b k r.toNat) := by
  obtain ⟨u, hu, h⟩ := blockCall_eq (i := .decBlk) rfl b k r hb
  rw [decryptBlockCall, h]
  have hx : blockOperand u = b := by rw [← hu]; exact join_leftHalf_rightHalf b
  have hk : keyOperand u = k := by rw [← hu]; rfl
  have hr : roundsOperand u = r.toNat := by rw [← hu]; rfl
  have hd : join (commandResult .decBlk u).doutHi (commandResult .decBlk u).doutLo =
      decryptBlock (blockOperand u) (keyOperand u) (roundsOperand u) := join_leftHalf_rightHalf _
  rw [hd, hx, hk, hr]

/-- R102: without `r` the calls run 32 rounds. -/
theorem defaultCalls_result (b : Block) (k : Key) {s : State} (hb : s.status.busy = false) :
    blockCall (encryptBlockDefaultCall b k) s = some (encryptBlock b k 32) ∧
    blockCall (decryptBlockDefaultCall b k) s = some (decryptBlock b k 32) :=
  ⟨encryptBlockCall_result b k 32 hb, decryptBlockCall_result b k 32 hb⟩

/-- The bytes of `OBUF` read in index order are the buffer's bytes. -/
theorem bufferResult_reads (f : Nat → Byte) (n i : Nat) :
    bufferResult i ((List.range' i n).map fun j => .byte .obuf j (f j)) = some ((List.range' i n).map f) := by
  induction n generalizing i with
  | zero => rfl
  | succ n ih => simp only [List.range'_succ, List.map_cons, bufferResult, if_true, ih, Option.map_some]

/-- After its output is stored, `OBUF[0..OLEN)` is the output. -/
theorem storeOutput_reads (out : List Byte) (s : State) :
    (List.range' 0 out.length).map (readObuf (storeOutput out s)) = out := by
  refine List.ext_getElem (by simp) fun j h1 h2 => ?_
  rw [List.getElem_map, List.getElem_range', readObuf_storeOutput]
  simp [h2]

/-- The input of a buffer command is what the host wrote. -/
theorem bytesOperand_storeBytes {d : List Byte} {s t : State} (hi : t.ibuf = (storeBytes 0 d s).ibuf)
    (hl : t.len.toNat = d.length) : bytesOperand t = d := by
  rw [bytesOperand, readIbufBytes_eq, hl]
  refine List.ext_getElem (by simp) fun j h1 h2 => ?_
  rw [List.getElem_map, List.getElem_range, readIbuf, hi, storeBytes, Memory.get?_writeBytes]
  have : 0 ≤ 0 + j ∧ 0 + j < 0 + d.length := by omega
  rw [if_pos this]
  simp [h2]

/-- The output of an accepted buffer command fits `OBUF` (R41). -/
theorem outputOf_length_le {i : Instr} (hi : isBlockCommand i = false) {s : State} (he : startError i s = none) :
    (outputOf i s).length ≤ s.len.toNat + 15 := by
  have hn : (bytesOperand s).length = s.len.toNat := readIbufBytes_length _ _ _
  cases i with
  | encBlk => cases hi
  | decBlk => cases hi
  | ecbEnc =>
    simp only [outputOf, ecbTransform, bytesOf_length, List.length_map, blocksOf_length, padEcb, zeros, List.length_append,
      List.length_replicate, hn]
    omega
  | ecbDec =>
    simp only [outputOf, ecbTransform, bytesOf_length, List.length_map, blocksOf_length, padEcb, zeros, List.length_append,
      List.length_replicate, hn]
    omega
  | cbcEnc =>
    have h8 : (bytes8 (ivOperand s)).length = 8 := rfl
    simp only [outputOf, cbcEncrypt, bytesOf_length, cbcEncryptBlocks_length, blocksOf_length, padCbc, zeros,
      List.length_append, List.length_replicate, hn, h8]
    omega
  | cbcDec =>
    have hm : s.len.toNat % 8 = 0 := by
      simp only [startError, checkRangeAndRagged] at he
      split at he
      · cases he
      · split at he
        · cases he
        · omega
    have hl := blocksOf_length (bytesOperand s)
    rw [outputOf, cbcDecrypt_of_whole (by rw [hn]; exact hm)]
    cases hb : blocksOf (bytesOperand s) with
    | nil => exact Nat.zero_le _
    | cons iv cs =>
      rw [hb, hn, List.length_cons] at hl
      rw [cbcDecryptWhole_cons, bytesOf_length, cbcDecryptBlocks_length]
      omega

/-- The result of a buffer call is the output of the command on what the call prepared. -/
theorem bufferCall_eq {i : Instr} (hi : isBlockCommand i = false) {ws : List (Nat × Word)}
    (hws : ∀ w ∈ ws, isStored w.1 = true) {d : List Byte} {s : State} (hb : s.status.busy = false)
    (hd : d.length ≤ s.params.maxlen.val)
    (he : startError i (prepared ws d [(0x0C, BitVec.ofNat 32 d.length)] s) = none) :
    bufferCall (regWrites ws ++ dataWrites d ++ [startAccess i, .wait]) s =
      some (outputOf i (prepared ws d [(0x0C, BitVec.ofNat 32 d.length)] s)) := by
  obtain ⟨due, hc⟩ := afterCall_eq i ws d [(0x0C, BitVec.ofNat 32 d.length)] hb hws
    (isStored_of_offsets (offsets := [0x0C]) rfl (by decide)) hd he
  obtain ⟨hp, _, _⟩ := prepared_frame ws d [(0x0C, BitVec.ofNat 32 d.length)] s
  generalize prepared ws d [(0x0C, BitVec.ofNat 32 d.length)] s = u at he hc hp
  have hlist : regWrites ws ++ dataWrites d ++ [startAccess i, Access.wait] =
      regWrites ws ++ (bufferWrites 0 d ++ (regWrites [(0x0C, BitVec.ofNat 32 d.length)] ++ [startAccess i, .wait])) := by
    simp [dataWrites, regWrites]
  obtain ⟨_, c2, c3, _⟩ := commandResult_frame i u
  have hle := outputOf_length_le hi he
  have hml := len_le_of_startError_none hi he
  have hout : outputOf i (acceptStart i.opcode u) = outputOf i u := by
    have hbo : bytesOperand (acceptStart i.opcode u) = bytesOperand u := by
      simp only [bytesOperand, readIbufBytes_eq]
      rfl
    cases i with
    | encBlk => rfl
    | decBlk => rfl
    | ecbEnc => simp only [outputOf, hbo]; rfl
    | ecbDec => simp only [outputOf, hbo]; rfl
    | cbcEnc => simp only [outputOf, hbo]; rfl
    | cbcDec => simp only [outputOf, hbo]; rfl
  obtain ⟨e, hrun⟩ := runOf_buffer hi (acceptStart i.opcode u)
  rw [hout] at hrun
  have hbusy : (waited i due u).status.busy = false := c3
  have hpar : (waited i due u).params = u.params := c2
  have holen : (waited i due u).olen = BitVec.ofNat 32 (outputOf i u).length := by
    show (runOf i (acceptStart i.opcode u)).olen = _
    rw [hrun]
    rfl
  have hobuf : ∀ a, readObuf (waited i due u) a = readObuf (storeOutput (outputOf i u) (acceptStart i.opcode u)) a := by
    intro a
    show readObuf (runOf i (acceptStart i.opcode u)) a = _
    rw [hrun]
    rfl
  obtain ⟨t, ht, hrep, hst, htp, hrd⟩ := afterAccesses_reads lengthReads hbusy (by decide) (by intro a ha; rw [List.mem_singleton.mp ha]; rfl)
  have hn : (BitVec.ofNat 32 (outputOf i u).length).toNat = (outputOf i u).length := by
    have := u.params.maxlen.isLt
    rw [BitVec.toNat_ofNat]
    exact Nat.mod_eq_of_lt (by omega)
  have htb : t.status.busy = false := by rw [hst]; exact hbusy
  obtain ⟨v, hv, hrep', _⟩ := afterAccesses_reads (bufferResultReads (BitVec.ofNat 32 (outputOf i u).length)) htb
    (by
      intro a ha
      obtain ⟨j, _, rfl⟩ := List.mem_map.mp ha
      rfl)
    (by
      intro a ha
      obtain ⟨j, hj, rfl⟩ := List.mem_map.mp ha
      rw [List.mem_range, hn] at hj
      rw [htp, hpar]
      simp only [Access.wellFormed, indexInSpace_eq_true, Space.size]
      omega)
  have hl : lengthResult (repliesSince (waited i due u) t) = some (BitVec.ofNat 32 (outputOf i u).length) := by
    rw [hrep, ← holen]
    rfl
  have hres : bufferResult 0 (repliesSince t v) = some (outputOf i u) := by
    have hm : (bufferResultReads (BitVec.ofNat 32 (outputOf i u).length)).map (readValue t) =
        (List.range' 0 (outputOf i u).length).map fun j =>
          .byte .obuf j (readObuf (storeOutput (outputOf i u) (acceptStart i.opcode u)) j) := by
      rw [bufferResultReads, hn, List.map_map, List.range_eq_range']
      exact List.map_congr_left fun j _ => (hrd (.rdb .obuf j)).trans (congrArg (Reply.byte .obuf j) (hobuf j))
    rw [hrep', hm, bufferResult_reads, storeOutput_reads]
  rw [hlist]
  simp only [bufferCall, hc, ht, hl, hv, hres, bind, Option.bind]

/-- The key writes as register writes. -/
def keyRegs (k : Key) : List (Nat × Word) := [(0x20, k.k0), (0x24, k.k1), (0x28, k.k2), (0x2C, k.k3)]

/-- They are all stored. -/
theorem keyRegs_stored (k : Key) : ∀ w ∈ keyRegs k, isStored w.1 = true :=
  isStored_of_offsets (offsets := [0x20, 0x24, 0x28, 0x2C]) rfl (by decide)

/-- A length up to `MAXLEN` fits `LEN`. -/
theorem toNat_length {d : List Byte} {s : State} (hd : d.length ≤ s.params.maxlen.val) :
    (BitVec.ofNat 32 d.length).toNat = d.length := by
  have := s.params.maxlen.isLt
  rw [BitVec.toNat_ofNat]
  exact Nat.mod_eq_of_lt (by omega)

/-- With `LEN` the length of what was written, the only check that can fail is that for a whole number of blocks. -/
theorem startError_of_len {i : Instr} {d : List Byte} {s t : State} (hp : t.params = s.params)
    (hl : t.len.toNat = d.length) (hd : d.length ≤ s.params.maxlen.val) (h8 : i = .cbcDec → d.length % 8 = 0) :
    startError i t = none := by
  have hr : ¬t.params.maxlen.val < t.len.toNat := by rw [hp, hl]; omega
  cases i with
  | encBlk => rfl
  | decBlk => rfl
  | ecbEnc => exact if_neg hr
  | ecbDec => exact if_neg hr
  | cbcEnc => exact if_neg hr
  | cbcDec => exact (if_neg hr).trans (if_neg (by rw [hl]; simpa using h8 rfl))

/-- R102: the calls `ecb_transform(d, k, direction)` give `ecb_transform` of R144, from every idle state. -/
theorem ecbCalls_result (d : List Byte) (k : Key) {s : State} (hb : s.status.busy = false)
    (hd : d.length ≤ s.params.maxlen.val) :
    bufferCall (ecbEncryptCall d k) s = some (ecbTransform d k .encrypt) ∧
    bufferCall (ecbDecryptCall d k) s = some (ecbTransform d k .decrypt) := by
  have hl : (prepared (keyRegs k) d [(0x0C, BitVec.ofNat 32 d.length)] s).len.toNat = d.length := toNat_length hd
  have hx : bytesOperand (prepared (keyRegs k) d [(0x0C, BitVec.ofNat 32 d.length)] s) = d :=
    bytesOperand_storeBytes (s := storeRegs (keyRegs k) s) rfl hl
  have hk : keyOperand (prepared (keyRegs k) d [(0x0C, BitVec.ofNat 32 d.length)] s) = k := rfl
  have he := bufferCall_eq (i := .ecbEnc) rfl (keyRegs_stored k) hb hd (startError_of_len (prepared_frame _ _ _ _).1 hl hd (by simp))
  have hde := bufferCall_eq (i := .ecbDec) rfl (keyRegs_stored k) hb hd (startError_of_len (prepared_frame _ _ _ _).1 hl hd (by simp))
  simp only [outputOf, hx, hk] at he hde
  exact ⟨he, hde⟩

/-- R102: the call `cbc_decrypt(d, k)` gives `cbc_decrypt` of R162, from every idle state, for a whole number of blocks. -/
theorem cbcDecryptCall_result (d : List Byte) (k : Key) {s : State} (hb : s.status.busy = false)
    (hd : d.length ≤ s.params.maxlen.val) (h8 : d.length % 8 = 0) :
    bufferCall (cbcDecryptCall d k) s = some (cbcDecrypt d k) := by
  have hl : (prepared (keyRegs k) d [(0x0C, BitVec.ofNat 32 d.length)] s).len.toNat = d.length := toNat_length hd
  have hx : bytesOperand (prepared (keyRegs k) d [(0x0C, BitVec.ofNat 32 d.length)] s) = d :=
    bytesOperand_storeBytes (s := storeRegs (keyRegs k) s) rfl hl
  have hk : keyOperand (prepared (keyRegs k) d [(0x0C, BitVec.ofNat 32 d.length)] s) = k := rfl
  have h := bufferCall_eq (i := .cbcDec) rfl (keyRegs_stored k) hb hd (startError_of_len (prepared_frame _ _ _ _).1 hl hd fun _ => h8)
  simp only [outputOf, hx, hk] at h
  exact h

/-- R102: the call `cbc_encrypt(d, k, iv)` gives `cbc_encrypt` of R161, `iv` read as `be64`, from every idle state. -/
theorem cbcEncryptCall_result (d : List Byte) (k : Key) (iv : Vector Byte 8) {s : State} (hb : s.status.busy = false)
    (hd : d.length ≤ s.params.maxlen.val) :
    bufferCall (cbcEncryptCall d k iv) s = some (cbcEncrypt d k (be64Buffer iv)) := by
  have hws : ∀ w ∈ keyRegs k ++ [(0x30, leftHalf (be64Buffer iv)), (0x34, rightHalf (be64Buffer iv))], isStored w.1 = true :=
    isStored_of_offsets (offsets := [0x20, 0x24, 0x28, 0x2C, 0x30, 0x34]) rfl (by decide)
  generalize hw : keyRegs k ++ [(0x30, leftHalf (be64Buffer iv)), (0x34, rightHalf (be64Buffer iv))] = ws at hws
  have hl : (prepared ws d [(0x0C, BitVec.ofNat 32 d.length)] s).len.toNat = d.length := by rw [← hw]; exact toNat_length hd
  have hx : bytesOperand (prepared ws d [(0x0C, BitVec.ofNat 32 d.length)] s) = d :=
    bytesOperand_storeBytes (s := storeRegs ws s) rfl hl
  have hk : keyOperand (prepared ws d [(0x0C, BitVec.ofNat 32 d.length)] s) = k := by rw [← hw]; rfl
  have hiv : ivOperand (prepared ws d [(0x0C, BitVec.ofNat 32 d.length)] s) = be64Buffer iv := by
    rw [← hw]
    exact join_leftHalf_rightHalf _
  have h := bufferCall_eq (i := .cbcEnc) rfl hws hb hd (startError_of_len (prepared_frame _ _ _ _).1 hl hd (by simp))
  simp only [outputOf, hx, hk, hiv] at h
  rw [← h, ← hw]
  rfl

/-- R102, R204: the call `cbc_decrypt(d, k)` on a ragged length is rejected: the host finds `ERR = 1` with code 3. -/
theorem cbcDecryptCall_rejected (d : List Byte) (k : Key) {s : State} (hb : s.status.busy = false)
    (hd : d.length ≤ s.params.maxlen.val) (h8 : d.length % 8 ≠ 0) : callRejected (cbcDecryptCall d k) s = some 3 := by
  obtain ⟨d1, h1⟩ := run_setup (keyRegs k) d [(0x0C, BitVec.ofNat 32 d.length)] [startAccess .cbcDec, .wait] hb
    (keyRegs_stored k) (isStored_of_offsets (offsets := [0x0C]) rfl (by decide)) hd s.due
  have hl : (prepared (keyRegs k) d [(0x0C, BitVec.ofNat 32 d.length)] s).len.toNat = d.length := toNat_length hd
  obtain ⟨p1, p2, p3⟩ := prepared_frame (keyRegs k) d [(0x0C, BitVec.ofNat 32 d.length)] s
  generalize prepared (keyRegs k) d [(0x0C, BitVec.ofNat 32 d.length)] s = u at h1 hl p1 p2 p3
  have hub : u.status.busy = false := by rw [p2]; exact hb
  have he : startError .cbcDec u = some .lenRagged := by
    have hr : ¬u.params.maxlen.val < u.len.toNat := by rw [p1, hl]; omega
    exact (if_neg hr).trans (if_pos (by rw [hl]; simpa using h8))
  have h2 : ∀ n, Sys2Proof.core.run (n + 2) (withHost [startAccess .cbcDec, .wait] d1 u) =
      Sys2Proof.core.run n (withHost [] (d1 - 1 - 1)
        (recorded [.word 0x04 (statusWord (raiseError .lenRagged u).status)] (raiseError .lenRagged u))) := by
    intro n
    refine (run_access hub rfl (t := raiseError .lenRagged u) (fun q => ?_) d1 (n + 1)).trans
      (run_access (s := raiseError .lenRagged u) hub rfl (fun q => ?_) (d1 - 1) n)
    · have hbd : (withHost [.wait] q u).status.busy = false := hub
      have hed : startError .cbcDec (withHost [.wait] q u) = some .lenRagged := (startError_congr _ rfl rfl).trans he
      have hdec : decode (encode .cbcDec) = .command .cbcDec := by decide
      simp only [startAccess, makeAccess, hostWrite, regAt, startCommand, hdec, hbd, reduceCtorEq, Bool.false_eq_true,
        if_false, if_true]
      rw [exec_eq_command, command_rejected hbd hed]
      rfl
    · have hbd : (withHost [] q (raiseError .lenRagged u)).status.busy = false := hub
      simp only [makeAccess, hostRead, hbd, Bool.false_and, Bool.false_eq_true, if_false]
      rfl
  generalize hz : recorded [.word 0x04 (statusWord (raiseError .lenRagged u).status)] (raiseError .lenRagged u) = z at h2
  have hzb : z.status.busy = false := by rw [← hz]; exact hub
  have hlist : cbcDecryptCall d k =
      regWrites (keyRegs k) ++ (bufferWrites 0 d ++ (regWrites [(0x0C, BitVec.ofNat 32 d.length)] ++ [startAccess .cbcDec, .wait])) := by
    simp [cbcDecryptCall, dataWrites, regWrites, keyRegs, keyWrites]
  have ha : afterAccesses (cbcDecryptCall d k) s = some (withHost [] (d1 - 1 - 1) z) := by
    rw [hlist]
    refine afterAccesses_eq (m := (keyRegs k).length + d.length + 1 + 2) (by simp [regWrites]; omega) (fun n => ?_) hzb rfl
    rw [show (keyRegs k).length + d.length + 1 + 2 + n = (keyRegs k).length + d.length + 1 + (n + 2) by omega]
    exact (h1 _).trans (h2 n)
  have hw : waitResult s (withHost [] (d1 - 1 - 1) z) = some (statusWord (raiseError .lenRagged u).status) := by
    have hr : (withHost [] (d1 - 1 - 1) z).replies =
        s.replies ++ [.word 0x04 (statusWord (raiseError .lenRagged u).status)] := by
      rw [← p3, ← hz]
      rfl
    rw [waitResult, repliesSince_of_eq hr]
    rfl
  have hst : (statusWord (raiseError .lenRagged u).status).getLsbD 2 = true ∧
      (statusWord (raiseError .lenRagged u).status).extractLsb' 4 4 = 3 := by
    simp only [raiseError, setStatus_status, statusRaised, statusCleared, errorNumber, hub, statusWord]
    cases u.status.hzd <;> decide
  simp only [callRejected, ha, hw, bind, Option.bind, hst, if_true]

end Sys2Proof.Machine
end

