-- ==== Sys2Proof/Laws/PerInstr.lean ====
section
/-! SUPPORT. The family `Encoding`: what holds of every command as syntax, command by command (spec/30_encoding.md R90,
R92, R97). -/

namespace Sys2Proof.Laws.Encoding

/-- A command is well-formed, its word has `RSV = 0` and its own `MODE` and `DIR`, and the decoder and the decoder of opcodes
read it back. -/
def Statement (i : Instr) : Prop :=
  i.wellFormed = true ∧ rsvField (encode i) = 0 ∧ modeField (encode i) = i.mode ∧ dirField (encode i) = i.dir ∧
    opcodeField (encode i) = i.opcode ∧ decode (encode i) = .command i ∧ decodeOpcode i.opcode = .command i

theorem encBlk : Statement .encBlk := by unfold Statement; decide
theorem decBlk : Statement .decBlk := by unfold Statement; decide
theorem ecbEnc : Statement .ecbEnc := by unfold Statement; decide
theorem ecbDec : Statement .ecbDec := by unfold Statement; decide
theorem cbcEnc : Statement .cbcEnc := by unfold Statement; decide
theorem cbcDec : Statement .cbcDec := by unfold Statement; decide

end Sys2Proof.Laws.Encoding
end

