-- ==== Sys2Proof/Laws/Placement.lean ====
section
/-! SUPPORT. No rule reads a platform bus address (spec/00_scope.md R8, spec/20_memory.md R73): moving the three address spaces on
the bus changes no step. -/

namespace Sys2Proof.Machine

/-- The same machine on a platform that places the three spaces elsewhere. -/
def State.placedAt (reg ibuf obuf : Nat) (s : State) : State :=
  { s with params := { s.params with regBase := reg, ibufBase := ibuf, obufBase := obuf } }

/-- The outcome on that platform: the same fault or refusal, or the next state there. -/
def outcomeAt (reg ibuf obuf : Nat) : Host.Outcome State Fault Refusal → Host.Outcome State Fault Refusal
  | .next t => .next (t.placedAt reg ibuf obuf)
  | .fault f => .fault f
  | .refused why => .refused why

variable (reg ibuf obuf : Nat)

/-- START checks the same. -/
theorem startError_placedAt (i : Instr) (s : State) : startError i (s.placedAt reg ibuf obuf) = startError i s := by
  cases i <;> rfl

/-- A buffer command reads the same bytes. -/
theorem bytesOperand_placedAt (s : State) : bytesOperand (s.placedAt reg ibuf obuf) = bytesOperand s := by
  have h : ∀ n i, readIbufBytes (s.placedAt reg ibuf obuf) i n = readIbufBytes s i n := by
    intro n
    induction n with
    | zero => exact fun _ => rfl
    | succ n ih => exact fun i => congrArg (readIbuf s i :: ·) (ih (i + 1))
  exact h _ _

/-- The pseudocode computes the same. -/
theorem runOf_placedAt (i : Instr) (s : State) :
    runOf i (s.placedAt reg ibuf obuf) = (runOf i s).placedAt reg ibuf obuf := by
  have hd := bytesOperand_placedAt reg ibuf obuf s
  cases i with
  | encBlk => rfl
  | decBlk => rfl
  | ecbEnc => simp only [runOf, runEcb, hd]; rfl
  | ecbDec => simp only [runOf, runEcb, hd]; rfl
  | cbcEnc => simp only [runOf, runCbcEnc, hd]; rfl
  | cbcDec => simp only [runOf, runCbcDec, hd]; rfl

/-- A command answers the same. -/
theorem exec_placedAt (i : Instr) (s : State) :
    exec i (s.placedAt reg ibuf obuf) = outcomeAt reg ibuf obuf (exec i s) := by
  have hb : (s.placedAt reg ibuf obuf).status.busy = s.status.busy := rfl
  rw [exec_eq_command, exec_eq_command]
  unfold command
  rw [hb, startError_placedAt, runOf_placedAt]
  cases s.status.busy <;> cases startError i s <;> rfl

/-- An access is answered the same. -/
theorem makeAccess_placedAt (a : Access) (s : State) :
    makeAccess a (s.placedAt reg ibuf obuf) = outcomeAt reg ibuf obuf (makeAccess a s) := by
  have hb : (s.placedAt reg ibuf obuf).status.busy = s.status.busy := rfl
  cases a with
  | rd offset =>
    simp only [makeAccess, hostRead, hb, outcomeAt]
    cases regAt offset <;> cases s.status.busy <;> rfl
  | wr offset v =>
    simp only [makeAccess, hostWrite, startCommand, hb]
    cases regAt offset <;> cases s.status.busy <;> cases decode v <;> first | rfl | exact exec_placedAt reg ibuf obuf _ s
  | rdb space index =>
    simp only [makeAccess, hostReadByte, hb, outcomeAt]
    cases space <;> cases s.status.busy <;> rfl
  | wrb space index b =>
    simp only [makeAccess, hostWriteByte, hb, outcomeAt]
    cases space <;> cases s.status.busy <;> rfl
  | wait => simp only [makeAccess, hostRead, hb, outcomeAt]; cases s.status.busy <;> rfl
  | reset => rfl

/-- No step depends on a bus address (R73). -/
theorem step_placedAt (s : State) : step (s.placedAt reg ibuf obuf) = outcomeAt reg ibuf obuf (step s) := by
  have hb : (s.placedAt reg ibuf obuf).status.busy = s.status.busy := rfl
  have hm : engineMoves (s.placedAt reg ibuf obuf) = engineMoves s := rfl
  have hh : (s.placedAt reg ibuf obuf).host = s.host := rfl
  have ho : (s.placedAt reg ibuf obuf).eng.op = s.eng.op := rfl
  unfold step nextStep
  rw [hb, hm, hh]
  split
  · unfold engineTurn
    rw [ho]
    cases decodeOpcode s.eng.op with
    | command i => exact exec_placedAt reg ibuf obuf i s
    | illegal why => rfl
  · cases s.host with
    | nil => rfl
    | cons a rest =>
      have ht : takeAccess rest (s.placedAt reg ibuf obuf) = (takeAccess rest s).placedAt reg ibuf obuf := rfl
      have hr : accessRefusal ((takeAccess rest s).placedAt reg ibuf obuf).params a = accessRefusal (takeAccess rest s).params a := by
        cases a <;> rfl
      simp only [hostTurn, ht, hr]
      cases accessRefusal (takeAccess rest s).params a with
      | none => exact makeAccess_placedAt reg ibuf obuf a _
      | some why => rfl

end Sys2Proof.Machine
end

