-- ==== Sys2Proof/Tests/Slice0.lean ====
section
/-! SUPPORT. Tests of one step or one function on small states, with expected values from spec/95_test_vectors.md (the vector
is named at each test), and for every obligation with hypotheses a witness that meets them. -/

set_option Elab.async false

namespace Sys2Proof.Tests

open Sys2Proof.Machine

/-! ### Helpers -/

/-- The key `K2` of the vectors. -/
def keyK2 : Key := ⟨0x01234567, 0x89ABCDEF, 0xFEDCBA98, 0x76543210⟩

/-- A key in the state. -/
def withKey (k : Key) (s : State) : State := { s with key0 := k.k0, key1 := k.k1, key2 := k.k2, key3 := k.k3 }

/-- A block in `DIN` and a round count. -/
def withBlock (b : Block) (rounds : Word) (s : State) : State :=
  { s with dinHi := leftHalf b, dinLo := rightHalf b, rounds := rounds }

/-- Bytes in `IBUF` from index 0, and `LEN` their number. -/
def withBytes (d : List Byte) (s : State) : State :=
  { s with ibuf := Memory.writeBytes [] 0 d, len := BitVec.ofNat 32 d.length }

/-- `LEN`. -/
def withLen (n : Nat) (s : State) : State := { s with len := BitVec.ofNat 32 n }

/-- The IV `IVA` of the vectors. -/
def withIva (s : State) : State := { s with ivHi := 0x11223344, ivLo := 0x55667788 }

/-- `STATUS` from its low byte. -/
def withStatus (w : BitVec 8) (s : State) : State :=
  { s with status := ⟨w.getLsbD 0, w.getLsbD 1, w.getLsbD 2, w.getLsbD 3, w.extractLsb' 4 4⟩ }

/-- The host is about to make an access. -/
def withAccess (a : Access) (s : State) : State := { s with host := [a] }

/-- `BUSY = 1` with a command latched, its completion due after `due` accesses. -/
def running (i : Instr) (due : Nat) (s : State) : State :=
  { s with status := ⟨true, false, false, false, 0⟩, eng := { s.eng with op := i.opcode }, due := due }

/-- The state after reset with a key, so that no test reads a free value: idle, `LEN = 0`, `ROUNDS = 32`. -/
def base : State := withKey keyK2 State.reset

/-- What a function says of the next state, if there is one. -/
def after {α : Type} (o : Host.Outcome State Fault Refusal) (f : State → α) : Option α :=
  match o with
  | .next t => some (f t)
  | .fault _ => none
  | .refused _ => none

/-- `DOUT`. -/
def dout (s : State) : Block := join s.doutHi s.doutLo

/-- `OBUF[0..OLEN)`. -/
def output (s : State) : List Byte := (List.range s.olen.toNat).map (readObuf s)

/-- What a read of `STATUS` returns. -/
def statusOf (s : State) : Word := statusWord s.status

/-! ### Well-formedness -/

/-- Every command is well-formed, and so is each kind of access at the ends of its range. -/
theorem test_wellFormed_accepts :
    Instr.wellFormed .cbcDec = true ∧
    Access.wellFormed base.params (.rd 0xFC) = true ∧ Access.wellFormed base.params (.wr 0x00 7) = true ∧
    Access.wellFormed base.params (.rdb .ibuf 4095) = true ∧ Access.wellFormed base.params (.rdb .obuf 4111) = true ∧
    Access.wellFormed base.params .wait = true ∧ Access.wellFormed base.params .reset = true := by decide

/-- The alignment check refuses a misaligned offset (R66). -/
theorem test_wellFormed_misaligned :
    Access.wellFormed base.params (.rd 0x22) = false ∧ Access.wellFormed base.params (.wr 0x01 0) = false := by decide

/-- The range check of the register space refuses the first offset beyond it (R66). -/
theorem test_wellFormed_offset_range :
    Access.wellFormed base.params (.rd 0x100) = false ∧ Access.wellFormed base.params (.wr 0x100 0) = false := by decide

/-- The range check of the buffers refuses the first index beyond each (R65, R67). -/
theorem test_wellFormed_index_range :
    Access.wellFormed base.params (.rdb .ibuf 4096) = false ∧ Access.wellFormed base.params (.wrb .ibuf 4096 0) = false ∧
    Access.wellFormed base.params (.rdb .obuf 4112) = false ∧ Access.wellFormed base.params (.wrb .obuf 4112 0) = false := by
  decide

/-- The step refuses those accesses by name. -/
theorem test_foreign_accesses_are_refused :
    step (withAccess (.rd 0x22) base) = .refused .misalignedRegister ∧
    step (withAccess (.wr 0x100 0) base) = .refused .registerOutOfSpace ∧
    step (withAccess (.rdb .obuf 4112) base) = .refused .bufferIndexOutOfSpace := ⟨rfl, rfl, rfl⟩

/-! ### Decoding: words written out bit by bit, `RSV` (29 bits), `MODE` (2 bits), `DIR` (1 bit) (R90, R92) -/

theorem test_decode_encBlk : decode 0b00000000000000000000000000000_00_0 = .command .encBlk := by decide
theorem test_decode_decBlk : decode 0b00000000000000000000000000000_00_1 = .command .decBlk := by decide
theorem test_decode_ecbEnc : decode 0b00000000000000000000000000000_01_0 = .command .ecbEnc := by decide
theorem test_decode_ecbDec : decode 0b00000000000000000000000000000_01_1 = .command .ecbDec := by decide
theorem test_decode_cbcEnc : decode 0b00000000000000000000000000000_10_0 = .command .cbcEnc := by decide
theorem test_decode_cbcDec : decode 0b00000000000000000000000000000_10_1 = .command .cbcDec := by decide

/-- The decoder vectors of section 2.5. -/
theorem test_decode_illegal :
    decode 0b00000000000000000000000000000_11_0 = .illegal .reservedMode ∧
    decode 0b00000000000000000000000000000_11_1 = .illegal .reservedMode ∧
    decode 0x00000008 = .illegal .reservedBits ∧ decode 0x00000010 = .illegal .reservedBits ∧
    decode 0x80000000 = .illegal .reservedBits ∧ decode 0xFFFFFFFF = .illegal .reservedBits := by decide

/-- The decoder of table words: the six rows, no longer form, and no command for word 6. -/
theorem test_decodeTableWord :
    decodeTableWord 32 4 = some .cbcEnc ∧ decodeTableWord 32 6 = none ∧ decodeTableWord 40 0 = none := by decide

/-- A placed command is what the next step runs, from the state after reset: a completion. -/
theorem test_placed_words_run :
    ∀ w ∈ [0, 1, 2, 3, 4, 5], after (step (State.reset.withFetchWord 32 w)) statusOf = some 0x00000002 := by decide

/-- A placed illegal word raises `BAD_OP`. -/
theorem test_placed_illegal_word : after (step (State.reset.withFetchWord 32 6)) statusOf = some 0x00000014 := by decide

/-! ### Primitives (A1 to A13) -/

theorem test_shl4 : shl4 0x0FFFFFFF = 0xFFFFFFF0 ∧ shl4 0x10000000 = 0 := by decide
theorem test_shr5_logical : shr5 0x80000000 = 0x04000000 ∧ shr5 0xFFFFFFFF = 0x07FFFFFF := by decide
theorem test_mul32_wraps : mul32 0x9E3779B9 32 = 0xC6EF3720 ∧ mul32 0x9E3779B9 64 = 0x8DDE6E40 := by decide
theorem test_sub32_wraps : sub32 0 0x9E3779B9 = 0x61C88647 := by decide
/-- A11, A12. -/
theorem test_roundF :
    roundF 0x89ABCDEF 0x01234567 0x89ABCDEF 0x9E3779B9 = 0x31FA4FA1 ∧
    roundF 0xFFFFFFFF 0xFFFFFFFF 0xFFFFFFFF 0x9E3779B9 = 0x663779A9 := by decide

/-! ### The commands, each one completion step -/

/-- V3. -/
theorem test_encBlk :
    after (exec .encBlk (running .encBlk 0 (withBlock 0x0123456789ABCDEF 32 base))) dout = some 0x17B5BA5198581091 := by
  decide +kernel

/-- V15 (64 rounds) and V17 (key order matters). -/
theorem test_encBlk_rounds_and_key_order :
    after (exec .encBlk (running .encBlk 0 (withBlock 0x0123456789ABCDEF 64 base))) dout = some 0x1F49FEA37D53D37F ∧
    after (exec .encBlk (running .encBlk 0 (withKey ⟨0x76543210, 0xFEDCBA98, 0x89ABCDEF, 0x01234567⟩
      (withBlock 0x0123456789ABCDEF 32 base)))) dout = some 0x735545911C81902E := by decide +kernel

/-- V16: the round count differs from that of V3. -/
theorem test_decBlk :
    after (exec .decBlk (running .decBlk 0 (withBlock 0x17B5BA5198581091 16 base))) dout = some 0x9DE09B3207218903 := by
  decide +kernel

/-- V12 (subtraction wraps) and V13d (no round at all). -/
theorem test_decBlk_wraps_and_zero_rounds :
    after (exec .decBlk (running .decBlk 0 (withKey ⟨0, 0, 0, 0⟩ (withBlock 0 1 base)))) dout = some 0xE079DFBE61C88647 ∧
    after (exec .decBlk (running .decBlk 0 (withBlock 0x0123456789ABCDEF 0 base))) dout = some 0x0123456789ABCDEF := by
  decide +kernel

/-- E5. -/
theorem test_ecbEnc :
    after (exec .ecbEnc (running .ecbEnc 0 (withBytes [1, 2, 3, 4, 5, 6, 7, 8, 9] base))) output =
      some [0x2C, 0x03, 0x72, 0xCF, 0x7C, 0x60, 0xD3, 0x49, 0xAA, 0x26, 0x8F, 0x33, 0x69, 0xFA, 0x57, 0x23] := by decide +kernel

/-- P5: `ROUNDS` is ignored, and the empty input gives one block. -/
theorem test_ecbEnc_empty :
    after (exec .ecbEnc (running .ecbEnc 0 { withBytes [] base with rounds := 16 })) output =
      some [0xF2, 0x57, 0xF7, 0x40, 0x2D, 0x57, 0x8C, 0xEE] := by decide +kernel

/-- E2d: a ragged input is padded. -/
theorem test_ecbDec :
    after (exec .ecbDec (running .ecbDec 0 (withBytes [0x41] base))) output =
      some [0x66, 0xE7, 0x5D, 0xE1, 0x9C, 0x57, 0x6D, 0x6E] := by decide +kernel

/-- E7: the junk block of the second padding. -/
theorem test_ecbDec_whole_blocks :
    after (exec .ecbDec (running .ecbDec 0 (withBytes
      [0x2C, 0x03, 0x72, 0xCF, 0x7C, 0x60, 0xD3, 0x49, 0xF2, 0x57, 0xF7, 0x40, 0x2D, 0x57, 0x8C, 0xEE] base))) output =
      some [1, 2, 3, 4, 5, 6, 7, 8, 0, 0, 0, 0, 0, 0, 0, 0, 0x07, 0x63, 0x89, 0xC3, 0x24, 0x80, 0xDA, 0x73] := by decide +kernel

/-- B3. -/
theorem test_cbcEnc :
    after (exec .cbcEnc (running .cbcEnc 0 (withIva (withBytes [1, 2, 3, 4, 5, 6, 7, 8, 9] base)))) output =
      some [0x11, 0x22, 0x33, 0x44, 0x55, 0x66, 0x77, 0x88, 0xFA, 0x52, 0x75, 0x6F, 0x24, 0xD8, 0x99, 0xCF,
        0xF5, 0x91, 0xBC, 0x02, 0x8D, 0x9A, 0xC5, 0x09] := by decide +kernel

/-- B1: nothing but the IV. -/
theorem test_cbcEnc_empty :
    after (exec .cbcEnc (running .cbcEnc 0 (withIva (withBytes [] base)))) output =
      some [0x11, 0x22, 0x33, 0x44, 0x55, 0x66, 0x77, 0x88] := by decide +kernel

/-- B3d. -/
theorem test_cbcDec :
    after (exec .cbcDec (running .cbcDec 0 (withBytes
      [0x11, 0x22, 0x33, 0x44, 0x55, 0x66, 0x77, 0x88, 0xFA, 0x52, 0x75, 0x6F, 0x24, 0xD8, 0x99, 0xCF,
        0xF5, 0x91, 0xBC, 0x02, 0x8D, 0x9A, 0xC5, 0x09] base))) output =
      some [1, 2, 3, 4, 5, 6, 7, 8, 9, 0, 0, 0, 0, 0, 0, 0] := by decide +kernel

/-- B1d and B1e: the IV alone, and no input at all. -/
theorem test_cbcDec_empty :
    after (exec .cbcDec (running .cbcDec 0 (withBytes [0x11, 0x22, 0x33, 0x44, 0x55, 0x66, 0x77, 0x88] base))) output =
      some [] ∧
    after (exec .cbcDec (running .cbcDec 0 (withBytes [] base))) output = some [] := by decide +kernel

/-- R187: the hidden registers after B3: two blocks, 32 rounds, `SUM` 32 times `DELTA`, `PREV` the last ciphertext block. -/
theorem test_hidden_registers :
    after (exec .cbcEnc (running .cbcEnc 0 (withIva (withBytes [1, 2, 3, 4, 5, 6, 7, 8, 9] base)))) State.eng =
      some ⟨4, 2, 32, 0xF591BC02, 0x8D9AC509, 0xC6EF3720, 0xF591BC028D9AC509⟩ := by decide +kernel

/-- The micro-sequence gives the same, hidden registers and buffer. -/
theorem test_micro_sequence :
    (seqCommand .cbcEnc (running .cbcEnc 0 (withIva (withBytes [1, 2, 3, 4, 5, 6, 7, 8, 9] base)))).eng =
      ⟨4, 2, 32, 0xF591BC02, 0x8D9AC509, 0xC6EF3720, 0xF591BC028D9AC509⟩ := by decide +kernel

/-! ### START, errors and the host's accesses (X1 to X22), each one step -/

/-- X1 to X4 and X10: `BAD_OP`, before any other check. -/
theorem test_bad_op :
    ∀ w ∈ [(6 : Nat), 7, 8, 0x80000002],
      after (step (withAccess (.wr 0x00 (BitVec.ofNat 32 w)) (withLen 4097 base))) statusOf = some 0x00000014 := by decide

/-- X5, X9 and X6: `LEN_RANGE`, before `LEN_RAGGED`, and not for `ENC_BLK`. -/
theorem test_len_range :
    after (step (withAccess (.wr 0x00 2) (withLen 4097 base))) statusOf = some 0x00000024 ∧
    after (step (withAccess (.wr 0x00 5) (withLen 4097 base))) statusOf = some 0x00000024 ∧
    after (step (withAccess (.wr 0x00 0) (withLen 4097 base))) statusOf = some 0x00000001 := by decide

/-- X7 and X8: `LEN_RAGGED` for `CBC_DEC` only. -/
theorem test_len_ragged :
    after (step (withAccess (.wr 0x00 5) (withLen 12 base))) statusOf = some 0x00000034 ∧
    after (step (withAccess (.wr 0x00 3) (withLen 12 base))) statusOf = some 0x00000001 := by decide

/-- X20 and X12: the longest `LEN`, and a START that clears the last error. -/
theorem test_accepted_starts :
    after (step (withAccess (startAccess .ecbEnc) (withLen 4096 base))) (fun t => (statusOf t, t.eng.op)) =
      some (0x00000001, 2) ∧
    after (step (withAccess (startAccess .cbcDec) (withStatus 0x34 (withLen 16 base)))) statusOf = some 0x00000001 := by
  decide

/-- X13 and X17: START clears `DONE`, not `HZD`. -/
theorem test_start_clears_done :
    after (step (withAccess (.wr 0x00 6) (withStatus 0x02 base))) statusOf = some 0x00000014 ∧
    after (step (withAccess (.wr 0x00 0) (withStatus 0x0A base))) statusOf = some 0x00000009 := by decide

/-- X11 and X16: writing 1 to clear. -/
theorem test_status_write :
    after (step (withAccess (.wr 0x04 0x4) (withStatus 0x34 base))) statusOf = some 0x00000000 ∧
    after (step (withAccess (.wr 0x04 0xA) (withStatus 0x0A base))) statusOf = some 0x00000000 := by decide

/-- X14 and X15: a write while busy is discarded and sets `HZD`. -/
theorem test_write_while_busy :
    after (step (withAccess (.wr 0x20 0x12345678) (running .encBlk 1 base))) (fun t => (statusOf t, t.key0)) =
      some (0x00000009, 0x01234567) ∧
    after (step (withAccess (.wr 0x00 6) (running .encBlk 1 base))) statusOf = some 0x00000009 := by decide

/-- P4, lines 14 and 15: with the completion due, the engine moves first. -/
theorem test_completion_comes_first :
    after (step (withAccess (.wr 0x0C 8) (running .encBlk 0 (withLen 16 base)))) (fun t => (statusOf t, t.len, t.host)) =
      some (0x00000002, 16, [.wr 0x0C 8]) := by decide

/-- X18: what the registers read after reset. -/
theorem test_reset_reads :
    ∀ p ∈ [((0x08 : Nat), (0x00000020 : Word)), (0x0C, 0), (0x10, 0), (0x04, 0), (0x00, 0)],
      after (step (withAccess (.rd p.1) State.reset)) State.replies = some [.word p.1 p.2] := by decide

/-- R72: reserved offsets at the ends of their ranges read 0, and a write to one changes nothing. -/
theorem test_reserved_offsets :
    (∀ o ∈ [0x14, 0x1C, 0x38, 0x3C, 0x50, 0xFC], after (step (withAccess (.rd o) base)) State.replies = some [.word o 0]) ∧
    after (step (withAccess (.wr 0xFC 1) base)) (fun t => (keyOperand t, t.rounds, t.len, statusOf t)) =
      some (keyK2, 32, 0, 0) := by decide

/-- R183, R184: a byte written to `IBUF` is read back. -/
theorem test_ibuf_read_back :
    after (step (withAccess (.wrb .ibuf 4095 0xAB) base)) (fun t => readIbuf t 4095) = some 0xAB ∧
    after (step (withAccess (.rdb .ibuf 1) (withBytes [7, 8, 9] base))) State.replies = some [.byte .ibuf 1 8] := by decide

/-- A write keeps the canonical form of a buffer, whatever the order of the writes. -/
theorem test_canonical_form :
    Memory.write (Memory.write (Memory.write [] 5 1) 3 2) 5 4 = [(3, 2), (5, 4)] ∧ Memory.wf [(3, 2), (5, 4)] = true ∧
    Memory.wf [(5, 4), (3, 2)] = false := by decide

/-- R102: the expansion of a call into accesses. -/
theorem test_call_expansion :
    ecbEncryptCall [0x41] keyK2 =
      [.wr 0x20 0x01234567, .wr 0x24 0x89ABCDEF, .wr 0x28 0xFEDCBA98, .wr 0x2C 0x76543210, .wrb .ibuf 0 0x41, .wr 0x0C 1,
        .wr 0x00 2, .wait] := by decide

/-- R102: the form without `r` writes 32 to `ROUNDS`, and the IV of `cbc_encrypt` is loaded as `be64` of its eight bytes
(the IV `IVA` of the vectors, R64). -/
theorem test_call_expansion_defaults :
    decryptBlockDefaultCall 0x0102030405060708 keyK2 =
      keyWrites keyK2 ++ [.wr 0x08 0x20, .wr 0x40 0x01020304, .wr 0x44 0x05060708, .wr 0x00 1, .wait] ∧
    ivWrites #v[0x11, 0x22, 0x33, 0x44, 0x55, 0x66, 0x77, 0x88] = [.wr 0x30 0x11223344, .wr 0x34 0x55667788] := by decide

/-- R102: the result of a block call is `rd DOUT_HI * 2^32 + rd DOUT_LO`; the reads of a buffer call's result are those that
`rd OLEN` asks for, and their bytes are the result. -/
theorem test_call_results :
    blockResult [.word 0x48 0x01020304, .word 0x4C 0x05060708] = some 0x0102030405060708 ∧
    lengthResult [.word 0x10 2] = some 2 ∧ bufferResultReads 2 = [.rdb .obuf 0, .rdb .obuf 1] ∧
    bufferResult 0 [.byte .obuf 0 0xFA, .byte .obuf 1 0x52] = some [0xFA, 0x52] ∧ bufferResult 0 [] = some [] := by decide

/-! ### Witnesses: for each obligation with hypotheses, operands and states that meet them all, at the ends of the ranges -/

theorem witness_SumSchedule : (0 : Nat) ≤ 0 ∧ (1 : Nat) ≤ 2 := by decide

theorem witness_ByteOrderIsBigEndian : (0 : Nat) < 8 ∧ (7 : Nat) < 8 := by decide

theorem witness_PaddingRules : 8 ∣ ([1, 2, 3, 4, 5, 6, 7, 8] : List Byte).length := by decide

theorem witness_ModeOutputLengths : 8 ∣ ([1, 2, 3, 4, 5, 6, 7, 8] : List Byte).length := by decide

theorem witness_EcbBlocksAreIndependent : blockFunction .encrypt keyK2 5 = blockFunction .encrypt keyK2 5 := rfl

/-- A plaintext with a second block, and a ciphertext with an IV and a block. -/
theorem witness_ChainingValueIsPreviousCiphertext :
    (blocksOf (padCbc [1, 2, 3, 4, 5, 6, 7, 8, 9]))[1]? = some 0x0900000000000000 ∧
    8 ∣ ([0, 0, 0, 0, 0, 0, 0, 1, 0, 0, 0, 0, 0, 0, 0, 2] : List Byte).length ∧
    blocksOf [0, 0, 0, 0, 0, 0, 0, 1, 0, 0, 0, 0, 0, 0, 0, 2] = (1 : Block) :: [2] ∧ [(2 : Block)][0]? = some 2 := by decide

/-- The changed block has a next plaintext block, and so has a changed IV. -/
theorem witness_CbcDecryptDependsOnTwoBlocks :
    (2 : Block) ≠ 7 ∧
    (∃ p p', (cbcDecryptBlocks keyK2 0 ([1] ++ 2 :: [3]))[[(1 : Block)].length + 1]? = some p ∧
      (cbcDecryptBlocks keyK2 0 ([1] ++ 7 :: [3]))[[(1 : Block)].length + 1]? = some p') ∧
    ∃ p p', (cbcDecryptBlocks keyK2 2 [3])[0]? = some p ∧ (cbcDecryptBlocks keyK2 7 [3])[0]? = some p' :=
  ⟨by decide, ⟨_, _, rfl, rfl⟩, _, _, rfl, rfl⟩

theorem witness_EmptyAndShortInputs : ([1, 2, 3, 4, 5, 6, 7, 8] : List Byte).length = 8 := by decide

theorem witness_ZeroIvGivesTheEcbBlock : ([0] : List Byte) ≠ [] := by decide

theorem witness_DecodeOfEncode : encode .cbcDec = encode .cbcDec := rfl

/-- Every command is accepted somewhere: the buffer commands at the longest `LEN`. -/
theorem witness_AcceptedStart :
    base.status.busy = false ∧ startError .encBlk (withLen 0xFFFFFFFF base) = none ∧
    startError .decBlk base = none ∧ startError .ecbEnc (withLen 4095 base) = none ∧
    startError .ecbDec (withLen 4096 base) = none ∧ startError .cbcEnc (withLen 4089 base) = none ∧
    startError .cbcDec (withLen 4096 base) = none ∧ startError .cbcDec (withLen 0 base) = none := by decide

theorem witness_RejectedStart :
    base.status.busy = false ∧ startError .ecbEnc (withLen 4097 base) = some .lenRange ∧
    startError .cbcDec (withLen 4104 base) = some .lenRange ∧ startError .cbcDec (withLen 4095 base) = some .lenRagged := by
  decide

theorem witness_LenRangeRejectsBufferCommands :
    (withLen 4097 base).status.busy = false ∧ (withLen 4097 base).params.maxlen.val < (withLen 4097 base).len.toNat ∧
    isBlockCommand .cbcDec = false ∧ isBlockCommand .decBlk = true := by decide

theorem witness_RaggedLenRejectsOnlyCbcDec :
    (∀ n ∈ [(0 : Nat), 1, 4095, 4096], (withLen n base).status.busy = false ∧
      (withLen n base).len.toNat ≤ (withLen n base).params.maxlen.val) ∧
    (Instr.cbcDec = .cbcDec ∧ (withLen 4095 base).len.toNat % 8 ≠ 0) ∧
    (Instr.ecbDec ≠ .cbcDec ∨ (withLen 4095 base).len.toNat % 8 = 0) ∧
    (Instr.cbcDec ≠ .cbcDec ∨ (withLen 0 base).len.toNat % 8 = 0) := by decide

theorem witness_WholeBlocksInRangeStartEveryCommand :
    (withLen 4096 base).status.busy = false ∧ (withLen 4096 base).len.toNat ≤ (withLen 4096 base).params.maxlen.val ∧
    (withLen 4096 base).len.toNat % 8 = 0 := by decide

/-- The least illegal word and the greatest. -/
theorem witness_IllegalWordRaisesBadOp :
    ∀ n ∈ [(6 : Nat), 0xFFFFFFFF], (withAccess (.wr 0x00 (BitVec.ofNat 32 n)) base).status.busy = false ∧
      (withAccess (.wr 0x00 (BitVec.ofNat 32 n)) base).host = .wr 0x00 (BitVec.ofNat 32 n) :: [] ∧
      6 ≤ (BitVec.ofNat 32 n).toNat := by decide

theorem witness_EncBlkResult : base.status.busy = false ∧ (running .encBlk 0 base).status.busy = true := by decide

theorem witness_DecBlkResult : base.status.busy = false ∧ (running .decBlk 0 base).status.busy = true := by decide

/-- Both commands; a START beyond the range and at its ends; a completion at the ends. -/
theorem witness_EcbResults :
    ((Instr.ecbEnc = .ecbEnc ∧ Direction.encrypt = .encrypt) ∨ (Instr.ecbEnc = .ecbDec ∧ Direction.encrypt = .decrypt)) ∧
    ((Instr.ecbDec = .ecbEnc ∧ Direction.decrypt = .encrypt) ∨ (Instr.ecbDec = .ecbDec ∧ Direction.decrypt = .decrypt)) ∧
    ((withLen 4097 base).status.busy = false ∧ (withLen 4097 base).params.maxlen.val < (withLen 4097 base).len.toNat) ∧
    ∀ n ∈ [(0 : Nat), 4096], (withLen n base).status.busy = false ∧ (running .ecbEnc 0 (withLen n base)).status.busy = true ∧
      (withLen n base).len.toNat ≤ (withLen n base).params.maxlen.val := by decide

theorem witness_CbcEncResult :
    ((withLen 4097 base).status.busy = false ∧ (withLen 4097 base).params.maxlen.val < (withLen 4097 base).len.toNat) ∧
    ∀ n ∈ [(0 : Nat), 4089, 4096], (withLen n base).status.busy = false ∧
      (running .cbcEnc 0 (withLen n base)).status.busy = true ∧
      (withLen n base).len.toNat ≤ (withLen n base).params.maxlen.val := by decide

theorem witness_CbcDecResult :
    ((withLen 4097 base).status.busy = false ∧ (withLen 4097 base).params.maxlen.val < (withLen 4097 base).len.toNat) ∧
    ((withLen 4095 base).status.busy = false ∧ (withLen 4095 base).len.toNat ≤ (withLen 4095 base).params.maxlen.val ∧
      (withLen 4095 base).len.toNat % 8 ≠ 0) ∧
    ∀ n ∈ [(0 : Nat), 8, 4096], (withLen n base).status.busy = false ∧
      (running .cbcDec 0 (withLen n base)).status.busy = true ∧
      (withLen n base).len.toNat ≤ (withLen n base).params.maxlen.val ∧ (withLen n base).len.toNat % 8 = 0 := by decide

/-- The first byte beyond the output. -/
theorem witness_OutputTailIsUnspecified :
    isBlockCommand .ecbEnc = false ∧ (running .ecbEnc 0 base).status.busy = true ∧
    ∃ t, exec .ecbEnc (running .ecbEnc 0 base) = .next t ∧ t.olen.toNat ≤ 8 :=
  ⟨rfl, rfl, _, rfl, by decide⟩

/-- A rejected START, an accepted one and a completion. -/
theorem witness_CommandsNeverWriteTheirInputs :
    (∃ t, exec .cbcDec (withLen 12 base) = .next t) ∧ (∃ t, exec .encBlk base = .next t) ∧
    ∃ t, exec .cbcEnc (running .cbcEnc 0 base) = .next t :=
  ⟨⟨_, rfl⟩, ⟨_, rfl⟩, _, rfl⟩

theorem witness_CommandsKeepTheOthersOutputs :
    (∃ t, exec .cbcEnc (running .cbcEnc 0 base) = .next t ∧ isBlockCommand .cbcEnc = false) ∧
    ∃ t, exec .decBlk (running .decBlk 0 base) = .next t ∧ isBlockCommand .decBlk = true :=
  ⟨⟨_, rfl, rfl⟩, _, rfl, rfl⟩

/-- Two states that differ in the IV, in `DIN` and in the hidden registers, and agree on the operands of `ECB_ENC`. -/
theorem witness_ResultDependsOnlyOnOperands :
    SameOperands .ecbEnc (running .ecbEnc 0 (withBytes [5] base))
      (running .ecbDec 3 (withIva (withBlock 9 7 (withBytes [5] base)))) ∧
    (running .ecbEnc 0 (withBytes [5] base)).status.busy = true ∧
    (running .ecbDec 3 (withIva (withBlock 9 7 (withBytes [5] base)))).status.busy = true ∧
    (∃ t, exec .ecbEnc (running .ecbEnc 0 (withBytes [5] base)) = .next t) ∧
    ∃ t, exec .ecbEnc (running .ecbDec 3 (withIva (withBlock 9 7 (withBytes [5] base)))) = .next t :=
  ⟨⟨rfl, rfl, fun _ _ => rfl⟩, rfl, rfl, ⟨_, rfl⟩, _, rfl⟩

theorem witness_MicroSequenceEqualsCompletion :
    ∀ n ∈ [(0 : Nat), 8, 4096], ∀ i ∈ [Instr.encBlk, .decBlk, .ecbEnc, .ecbDec, .cbcEnc, .cbcDec],
      (running i 0 (withLen n base)).status.busy = true ∧ startError i (running i 0 (withLen n base)) = none := by
  decide

/-- The host has no access left; the completion is due; the host waits. -/
theorem witness_EngineStepRunsLatchedCommand :
    EngineMoves (running .decBlk 3 base) ∧ EngineMoves (withAccess (.rd 0x04) (running .decBlk 0 base)) ∧
    EngineMoves (withAccess .wait (running .decBlk 3 base)) ∧
    decodeOpcode (running .decBlk 3 base).eng.op = .command .decBlk :=
  ⟨⟨rfl, .inl rfl⟩, ⟨rfl, .inr (.inl rfl)⟩, ⟨rfl, .inr (.inr ⟨[], rfl⟩)⟩, rfl⟩

theorem witness_CommandWriteRunsDecodedCommand :
    (withAccess (.wr 0x00 5) base).status.busy = false ∧ (withAccess (.wr 0x00 5) base).host = .wr 0x00 5 :: [] ∧
    decode 5 = .command .cbcDec := by decide

theorem witness_IdleHoldsItsState : base.status.busy = false ∧ base.host = [] := by decide

/-- The host moves: on an idle engine, and before a completion that is not yet due. -/
theorem hostMoves_idle (a : Access) : HostMoves (withAccess a base) a [] := ⟨rfl, .inl rfl⟩

/-- The host moves before a completion that is not yet due, unless it waits. -/
theorem hostMoves_running (a : Access) (h : a ≠ .wait) : HostMoves (withAccess a (running .encBlk 1 base)) a [] :=
  ⟨rfl, .inr ⟨Nat.zero_lt_one, h⟩⟩

theorem witness_StatusWriteClears :
    HostMoves (withAccess (.wr 0x04 0xE) base) (.wr 0x04 0xE) [] ∧
    HostMoves (withAccess (.wr 0x04 0) (running .encBlk 1 base)) (.wr 0x04 0) [] :=
  ⟨hostMoves_idle _, hostMoves_running _ (by decide)⟩

theorem witness_WriteWhileBusyIsDiscarded :
    ∀ a ∈ [Access.wr 0x00 0, .wr 0xFC 1, .wrb .ibuf 4095 1, .wrb .obuf 4111 1],
      (withAccess a (running .encBlk 1 base)).status.busy = true ∧ HostMoves (withAccess a (running .encBlk 1 base)) a [] ∧
      a.wellFormed (withAccess a (running .encBlk 1 base)).params = true ∧
      ((∃ offset v, a = .wr offset v ∧ offset ≠ 0x04) ∨ ∃ space index b, a = .wrb space index b) := by
  intro a ha
  simp only [List.mem_cons, List.mem_nil_iff, or_false] at ha
  rcases ha with rfl | rfl | rfl | rfl
  · exact ⟨rfl, hostMoves_running _ (by decide), rfl, .inl ⟨_, _, rfl, by decide⟩⟩
  · exact ⟨rfl, hostMoves_running _ (by decide), rfl, .inl ⟨_, _, rfl, by decide⟩⟩
  · exact ⟨rfl, hostMoves_running _ (by decide), rfl, .inr ⟨_, _, _, rfl⟩⟩
  · exact ⟨rfl, hostMoves_running _ (by decide), rfl, .inr ⟨_, _, _, rfl⟩⟩

theorem witness_RegisterWritesStore :
    ∀ o ∈ [0x08, 0x0C, 0x20, 0x24, 0x28, 0x2C, 0x30, 0x34, 0x40, 0x44],
      (withAccess (.wr o 9) base).status.busy = false ∧ (withAccess (.wr o 9) base).host = .wr o 9 :: [] := by decide

/-- Every clause at its ends. -/
theorem witness_WritesToReadOnlyAreDiscarded :
    ∀ o ∈ [0x10, 0x48, 0x4C, 0x14, 0x1C, 0x38, 0x3C, 0x50, 0xFC],
      (withAccess (.wr o 9) base).status.busy = false ∧ (withAccess (.wr o 9) base).host = .wr o 9 :: [] ∧ o % 4 = 0 ∧
      o < 256 ∧
      (o = 0x10 ∨ o = 0x48 ∨ o = 0x4C ∨ (0x14 ≤ o ∧ o ≤ 0x1C) ∨ (0x38 ≤ o ∧ o ≤ 0x3C) ∨ 0x50 ≤ o) := by decide

/-- Every clause, on an idle engine; the last at its ends. -/
theorem witness_RegisterReadsReturnTheRegister :
    (∀ o, HostMoves (withAccess (.rd o) base) (.rd o) []) ∧ base.status.busy = false ∧
    ((0x04 = 0x04 ∧ statusWord base.status = statusWord base.status) ∧ (0x44 = 0x44 ∧ base.dinLo = base.dinLo) ∧
      (base.status.busy = false ∧ 0x4C = 0x4C ∧ base.doutLo = base.doutLo)) ∧
    ∀ o ∈ [0x00, 0x14, 0x1C, 0x38, 0x3C, 0x50, 0xFC], (0 : Word) = 0 ∧ o % 4 = 0 ∧ o < 256 ∧
      (o = 0x00 ∨ (0x14 ≤ o ∧ o ≤ 0x1C) ∨ (0x38 ≤ o ∧ o ≤ 0x3C) ∨ 0x50 ≤ o) := by
  exact ⟨fun _ => ⟨rfl, .inl rfl⟩, rfl, ⟨⟨rfl, rfl⟩, ⟨rfl, rfl⟩, rfl, rfl, rfl⟩, by decide⟩

/-- A read of every register kind and of both buffers, idle and busy. -/
theorem witness_ReadsHaveNoSideEffect :
    ∀ a ∈ [Access.rd 0x00, .rd 0xFC, .rdb .ibuf 4095, .rdb .obuf 4111],
      HostMoves (withAccess a base) a [] ∧ HostMoves (withAccess a (running .encBlk 1 base)) a [] ∧
      a.wellFormed base.params = true ∧ ((∃ offset, a = .rd offset) ∨ ∃ space index, a = .rdb space index) := by
  intro a ha
  simp only [List.mem_cons, List.mem_nil_iff, or_false] at ha
  rcases ha with rfl | rfl | rfl | rfl
  · exact ⟨hostMoves_idle _, hostMoves_running _ (by decide), rfl, .inl ⟨_, rfl⟩⟩
  · exact ⟨hostMoves_idle _, hostMoves_running _ (by decide), rfl, .inl ⟨_, rfl⟩⟩
  · exact ⟨hostMoves_idle _, hostMoves_running _ (by decide), rfl, .inr ⟨_, _, rfl⟩⟩
  · exact ⟨hostMoves_idle _, hostMoves_running _ (by decide), rfl, .inr ⟨_, _, rfl⟩⟩

theorem witness_BufferByteWrites :
    base.status.busy = false ∧ 4095 < base.params.maxlen.val ∧ 4111 < base.params.maxlen.val + 16 ∧
    (withAccess (.wrb .ibuf 4095 7) base).host = .wrb .ibuf 4095 7 :: [] ∧
    (withAccess (.wrb .obuf 4111 7) base).host = .wrb .obuf 4111 7 :: [] := by decide

theorem witness_BufferByteReads :
    4095 < base.params.maxlen.val ∧ HostMoves (withAccess (.rdb .ibuf 4095) (running .encBlk 1 base)) (.rdb .ibuf 4095) [] ∧
    4111 < base.params.maxlen.val + 16 ∧ HostMoves (withAccess (.rdb .obuf 4111) base) (.rdb .obuf 4111) [] ∧
    (withAccess (.rdb .obuf 4111) base).status.busy = false :=
  ⟨by decide, hostMoves_running _ (by decide), by decide, hostMoves_idle _, rfl⟩

/-- Both sides of the equivalence occur. -/
theorem witness_OnlyForeignAccessesAreRefused :
    HostMoves (withAccess (.rdb .ibuf 4096) base) (.rdb .ibuf 4096) [] ∧ base.params.maxlen.val ≤ 4096 ∧
    HostMoves (withAccess (.rd 0xFC) base) (.rd 0xFC) [] ∧ ¬(0xFC % 4 ≠ 0 ∨ 256 ≤ 0xFC) :=
  ⟨hostMoves_idle _, by decide, hostMoves_idle _, by decide⟩

theorem witness_OutputReadsWhileBusyAreFree :
    (running .encBlk 1 base).status.busy = true ∧
    (∀ o, HostMoves (withAccess (.rd o) (running .encBlk 1 base)) (.rd o) []) ∧
    HostMoves (withAccess (.rdb .obuf 4111) (running .encBlk 1 base)) (.rdb .obuf 4111) [] ∧
    4111 < base.params.maxlen.val + 16 :=
  ⟨rfl, fun _ => hostMoves_running _ (by simp), hostMoves_running _ (by decide), by decide⟩

theorem witness_WaitReadsStatusWhenIdle :
    (withAccess .wait base).host = .wait :: [] ∧ (withAccess .wait base).status.busy = false ∧
    (withAccess .wait (running .encBlk 1 base)).host = .wait :: [] ∧
    (withAccess .wait (running .encBlk 1 base)).status.busy = true ∧
    decodeOpcode (withAccess .wait (running .encBlk 1 base)).eng.op = .command .encBlk ∧
    startError .encBlk (withAccess .wait (running .encBlk 1 base)) = none := by decide

theorem witness_ResetValues :
    HostMoves (withAccess .reset base) .reset [] ∧ HostMoves (withAccess .reset (running .encBlk 1 base)) .reset [] :=
  ⟨hostMoves_idle _, hostMoves_running _ (by decide)⟩

/-- A state of the invariant in which a command runs. -/
theorem running_inv (a : Access) : Inv (withAccess a (running .encBlk 1 base)) := by
  have hs : StatusInv ⟨true, false, false, false, 0⟩ := by unfold StatusInv; decide
  refine ⟨hs, fun _ => ⟨.encBlk, rfl, rfl⟩, rfl, rfl, fun _ h => ?_, fun a => ?_, Nat.succ_pos _⟩
  · cases h
  · exact ⟨(fun h => by cases h), fun h => absurd h (Nat.not_lt_zero _)⟩

theorem witness_EveryStepKeepsTheInvariant :
    Inv (withAccess .wait (running .encBlk 1 base)) ∧ ∃ t, step (withAccess .wait (running .encBlk 1 base)) = .next t :=
  ⟨running_inv _, _, rfl⟩

theorem witness_InvariantStatesNeverFault : Inv (withAccess .wait (running .encBlk 1 base)) := running_inv _

/-- A START, a completion, and a reset while busy. -/
theorem witness_BusyChangesOnlyByStartCompletionReset :
    (∃ t, step (withAccess (.wr 0x00 0) base) = .next t ∧ base.status.busy = false ∧ t.status.busy = true) ∧
    (∃ t, step (withAccess .wait (running .encBlk 1 base)) = .next t ∧ t.status.busy = false) ∧
    ∃ t, step (withAccess .reset (running .encBlk 1 base)) = .next t ∧ t.status.busy = false :=
  ⟨⟨_, rfl, rfl, rfl⟩, ⟨_, rfl, rfl⟩, _, rfl, rfl⟩

/-- `DONE` set by a completion and cleared by a rejected START, a write of 1 and a reset. -/
theorem witness_DoneAndErrChangeOnlyAsStated :
    (∃ t, step (running .encBlk 0 base) = .next t ∧ (running .encBlk 0 base).status.done = false ∧ t.status.done = true) ∧
    (∀ a ∈ [Access.wr 0x00 6, .wr 0x04 2, .reset],
      (withAccess a (withStatus 0x02 base)).status.done = true ∧
      after (step (withAccess a (withStatus 0x02 base))) (fun t => t.status.done) = some false) := by
  refine ⟨⟨_, rfl, rfl, rfl⟩, by decide⟩

/-- `ERR` set by an illegal word and a bad `LEN`, and cleared by an accepted START, a write of 1 and a reset. -/
theorem witness_DoneAndErrChangeOnlyAsStated_err :
    (∀ w ∈ [(6 : Nat), 5], (withLen 12 base).status.err = false ∧
      after (step (withAccess (.wr 0x00 (BitVec.ofNat 32 w)) (withLen 12 base))) (fun t => t.status.err) = some true) ∧
    (∀ a ∈ [Access.wr 0x00 0, .wr 0x04 4, .reset],
      (withAccess a (withStatus 0x14 base)).status.err = true ∧
      after (step (withAccess a (withStatus 0x14 base))) (fun t => t.status.err) = some false) := by
  decide

/-- `HZD` set by a register write and by a byte write while busy, and cleared by a write of 1 to bit 3 and by a reset. -/
theorem witness_HazardFlagIsSticky :
    (∀ a ∈ [Access.wr 0x00 0, .wr 0xFC 1, .wrb .ibuf 0 1, .wrb .obuf 4111 1],
      (withAccess a (running .encBlk 1 base)).status.hzd = false ∧
      after (step (withAccess a (running .encBlk 1 base))) (fun t => t.status.hzd) = some true) ∧
    (withStatus 0x08 base).status.hzd = true ∧
    (∃ t, step (withAccess (.wr 0x04 8) (withStatus 0x08 base)) = .next t ∧ t.status.hzd = false) ∧
    ∃ t, step (withAccess .reset (withStatus 0x08 base)) = .next t ∧ t.status.hzd = false :=
  ⟨by decide, rfl, ⟨_, rfl, rfl⟩, _, rfl, rfl⟩

theorem witness_OperandsAreFixedWhileBusy :
    (running .encBlk 1 base).status.busy = true ∧
    (∃ t, step (withAccess (.wr 0x20 5) (running .encBlk 1 base)) = .next t) ∧
    ∀ rest, (withAccess (.wr 0x20 5) (running .encBlk 1 base)).host ≠ .reset :: rest :=
  ⟨rfl, ⟨_, rfl⟩, fun _ h => by cases h⟩

theorem witness_EveryAcceptedCommandCompletes :
    Inv (withAccess (.rd 0xFC) (running .encBlk 1 base)) ∧
    (withAccess (.rd 0xFC) (running .encBlk 1 base)).status.busy = true ∧
    ∀ a ∈ (withAccess (.rd 0xFC) (running .encBlk 1 base)).host,
      a.wellFormed (withAccess (.rd 0xFC) (running .encBlk 1 base)).params = true ∧ a ≠ .reset :=
  ⟨running_inv _, rfl, by decide⟩

end Sys2Proof.Tests
end

section
/-! SUPPORT. The state family: what one step can do to the state, said once as a list of events, and the proofs of the
statements of spec/10_state.md from it. -/

namespace Sys2Proof.Machine

/-! ### Reads and stores of one field -/

/-- A byte of `OBUF` depends only on the buffer and its draw. -/
theorem readObuf_congr {s t : State} (hm : t.obuf = s.obuf) (hd : t.obufDraw = s.obufDraw) (a : Nat) :
    readObuf t a = readObuf s a := by
  rw [readObuf, readObuf, hm, hd]

/-- A register store leaves the configuration. -/
@[simp] theorem storeReg_params (reg : Reg) (v : Word) (s : State) : (storeReg reg v s).params = s.params := by
  cases reg <;> rfl

/-- A register store leaves `STATUS`. -/
@[simp] theorem storeReg_status (reg : Reg) (v : Word) (s : State) : (storeReg reg v s).status = s.status := by
  cases reg <;> rfl

/-! ### What the pseudocode of a command writes -/

/-- The block that a command leaves in `DOUT`: its result, or for a buffer command what `DOUT` held. -/
def doutOf : Instr → State → Block
  | .encBlk, s => encryptBlock (blockOperand s) (keyOperand s) (roundsOperand s)
  | .decBlk, s => decryptBlock (blockOperand s) (keyOperand s) (roundsOperand s)
  | .ecbEnc, s => join s.doutHi s.doutLo
  | .ecbDec, s => join s.doutHi s.doutLo
  | .cbcEnc, s => join s.doutHi s.doutLo
  | .cbcDec, s => join s.doutHi s.doutLo

/-- The pseudocode of a block command stores its result and writes the hidden registers. -/
theorem runOf_block_result {i : Instr} (h : isBlockCommand i = true) (s : State) :
    ∃ e, runOf i s = setEngine e (storeDout (doutOf i s) s) := by
  cases i with
  | encBlk => exact ⟨_, rfl⟩
  | decBlk => exact ⟨_, rfl⟩
  | ecbEnc | ecbDec | cbcEnc | cbcDec => cases h

/-- The pseudocode of a command stores a block or an output, and writes the hidden registers. -/
theorem runOf_cases (i : Instr) (s : State) :
    (isBlockCommand i = true ∧ ∃ e, runOf i s = setEngine e (storeDout (doutOf i s) s)) ∨
    (isBlockCommand i = false ∧ ∃ e, runOf i s = setEngine e (storeOutput (outputOf i s) s)) := by
  cases hi : isBlockCommand i
  · exact .inr ⟨rfl, runOf_buffer hi s⟩
  · exact .inl ⟨rfl, runOf_block_result hi s⟩

/-- The pseudocode does not write `STATUS`: the completion around it does (R186). -/
@[simp] theorem runOf_status (i : Instr) (s : State) : (runOf i s).status = s.status := by
  rcases runOf_cases i s with ⟨-, e, hr⟩ | ⟨-, e, hr⟩ <;> simp [hr]

/-- The pseudocode does not write the configuration (R8). -/
@[simp] theorem runOf_params (i : Instr) (s : State) : (runOf i s).params = s.params := by
  rcases runOf_cases i s with ⟨-, e, hr⟩ | ⟨-, e, hr⟩ <;> simp [hr]

/-- With `BUSY = 1` a next state of `exec` is the completion. -/
theorem exec_next_of_busy {i : Instr} {s t : State} (hb : s.status.busy = true) (h : exec i s = .next t) :
    startError i s = none ∧ t = complete (runOf i s) := by
  rcases exec_next h with ⟨hb', -⟩ | ⟨hb', -⟩ | ⟨-, he, ht⟩
  · rw [hb] at hb'; cases hb'
  · rw [hb] at hb'; cases hb'
  · exact ⟨he, ht⟩

/-- The output of an accepted buffer command fits `OBUF` (R41, R65). -/
theorem outputOf_length_lt_size {i : Instr} (hi : isBlockCommand i = false) {s : State} (he : startError i s = none) :
    (outputOf i s).length < Space.size s.params .obuf := by
  have hout := outputOf_length_le hi he
  have hlen := len_le_of_startError_none hi he
  simp only [Space.size]
  omega

/-- `OLEN` after an accepted buffer command is the length of the output: no bit of it is lost. -/
theorem olen_storeOutput {i : Instr} (hi : isBlockCommand i = false) {s : State} (he : startError i s = none) :
    (storeOutput (outputOf i s) s).olen.toNat = (outputOf i s).length := by
  have hlt := outputOf_length_lt_size hi he
  have hmax := s.params.maxlen.isLt
  simp only [Space.size] at hlt
  rw [storeOutput_olen, BitVec.toNat_ofNat]
  exact Nat.mod_eq_of_lt (by omega)

/-- What a completed buffer command shows: `OLEN`, the output, and beyond it the free values of its own draw (U4). -/
theorem exec_buffer_completes {i : Instr} {s t : State} (hi : isBlockCommand i = false) (hb : s.status.busy = true)
    (h : exec i s = .next t) :
    t.olen.toNat = (outputOf i s).length ∧
      ∀ a, readObuf t a = ((outputOf i s)[a]?).getD (Config.freeObuf s.draws a) := by
  obtain ⟨he, rfl⟩ := exec_next_of_busy hb h
  obtain ⟨e, hr⟩ := runOf_buffer hi s
  refine ⟨by simpa [hr] using olen_storeOutput hi he, fun a => ?_⟩
  rw [← readObuf_storeOutput]
  exact readObuf_congr (by simp [hr]) (by simp [hr]) a

/-- What a completed block command shows in `DOUT`. -/
theorem exec_block_completes {i : Instr} {s t : State} (hi : isBlockCommand i = true) (hb : s.status.busy = true)
    (h : exec i s = .next t) : t.doutHi = leftHalf (doutOf i s) ∧ t.doutLo = rightHalf (doutOf i s) := by
  obtain ⟨-, rfl⟩ := exec_next_of_busy hb h
  obtain ⟨e, hr⟩ := runOf_block_result hi s
  simp [hr]

/-- The byte operand depends only on `LEN` and the bytes below it. -/
theorem bytesOperand_congr {s t : State} (hl : s.len = t.len) (hr : ∀ k, k < s.len.toNat → readIbuf s k = readIbuf t k) :
    bytesOperand s = bytesOperand t := by
  rw [bytesOperand, bytesOperand, readIbufBytes_eq, readIbufBytes_eq, ← hl]
  refine List.map_congr_left fun k hk => ?_
  rw [Nat.zero_add]
  exact hr k (List.mem_range.mp hk)

/-- What a command writes to `DOUT` is a function of its operands (R43). -/
theorem doutOf_congr {i : Instr} (hi : isBlockCommand i = true) {s t : State} (h : SameOperands i s t) :
    doutOf i s = doutOf i t := by
  cases i with
  | encBlk => obtain ⟨hk, hx, hn⟩ := h; simp only [doutOf, roundsOperand, hk, hx, hn]
  | decBlk => obtain ⟨hk, hx, hn⟩ := h; simp only [doutOf, roundsOperand, hk, hx, hn]
  | ecbEnc | ecbDec | cbcEnc | cbcDec => cases hi

/-- The output of a buffer command is a function of its operands (R43). -/
theorem outputOf_congr {i : Instr} {s t : State} (h : SameOperands i s t) : outputOf i s = outputOf i t := by
  cases i with
  | encBlk => rfl
  | decBlk => rfl
  | ecbEnc => obtain ⟨hk, hl, hr⟩ := h; simp only [outputOf, hk, bytesOperand_congr hl hr]
  | ecbDec => obtain ⟨hk, hl, hr⟩ := h; simp only [outputOf, hk, bytesOperand_congr hl hr]
  | cbcEnc => obtain ⟨hk, hv, hl, hr⟩ := h; simp only [outputOf, hk, hv, bytesOperand_congr hl hr]
  | cbcDec => obtain ⟨hk, hl, hr⟩ := h; simp only [outputOf, hk, bytesOperand_congr hl hr]

/-! ### The events of a step -/

/-- Everything one step from `s` can be, with the state it leaves: the idle step (R220), the completion the engine owes
(R186), or one access of the host (R180 to R190, R230), by what the access does. -/
inductive StepEvent (s : State) : State → Prop
  | idle : StepEvent s s
  | completion (i : Instr) (hb : s.status.busy = true) (hop : decodeOpcode s.eng.op = .command i)
      (he : startError i s = none) : StepEvent s (complete (runOf i s))
  | read (rest : List Access) (r : Reply) (n : Nat) :
      StepEvent s { takeAccess rest s with replies := s.replies ++ [r], draws := n }
  | statusWrite (v : Word) (rest : List Access) (hh : s.host = .wr 0x04 v :: rest) :
      StepEvent s (setStatus (statusWrite v s.status) (takeAccess rest s))
  | hazard (a : Access) (rest : List Access) (hh : s.host = a :: rest) (hb : s.status.busy = true)
      (hz : a.isHazard = true) : StepEvent s (hazard (takeAccess rest s))
  | accepted (w : Word) (i : Instr) (rest : List Access) (hh : s.host = .wr 0x00 w :: rest) (hb : s.status.busy = false)
      (hd : decode w = .command i) (he : startError i s = none) :
      StepEvent s (acceptStart i.opcode (takeAccess rest s))
  | rejected (w : Word) (e : ErrorCode) (rest : List Access) (hh : s.host = .wr 0x00 w :: rest)
      (hb : s.status.busy = false)
      (hw : (∃ why, decode w = .illegal why) ∨ ∃ i, decode w = .command i ∧ startError i s = some e) :
      StepEvent s (raiseError e (takeAccess rest s))
  | regStore (reg : Reg) (v : Word) (rest : List Access) (hb : s.status.busy = false) :
      StepEvent s (storeReg reg v (takeAccess rest s))
  | byteStore (index : Nat) (b : Byte) (rest : List Access) (hb : s.status.busy = false)
      (hi : index < Space.size s.params .ibuf) : StepEvent s (storeIbuf index b (takeAccess rest s))
  | noEffect (rest : List Access) (hb : s.status.busy = false) : StepEvent s (takeAccess rest s)
  | reset (rest : List Access) (hh : s.host = .reset :: rest) : StepEvent s (applyReset (takeAccess rest s))

/-- A START depends on nothing that taking an access moves. -/
@[simp] theorem startError_takeAccess (i : Instr) (rest : List Access) (s : State) :
    startError i (takeAccess rest s) = startError i s := startError_congr i rfl rfl

/-- The engine's turn that answers a next state is a completion. -/
theorem stepEvent_of_engineTurn {s t : State} (hb : s.status.busy = true) (h : engineTurn s = .next t) : StepEvent s t := by
  obtain ⟨i, hop, hx⟩ := engineTurn_next h
  obtain ⟨he, rfl⟩ := exec_next_of_busy hb hx
  exact .completion i hb hop he

/-- The host's turn that answers a next state is one of the host's events. -/
theorem stepEvent_of_hostTurn {s t : State} {a : Access} {rest : List Access} (hh : s.host = a :: rest)
    (h : hostTurn a (takeAccess rest s) = .next t) : StepEvent s t := by
  obtain ⟨hw, hm⟩ := hostTurn_next h
  rcases makeAccess_next hm with ⟨r, n, rfl⟩ | ⟨v, rfl, rfl⟩ | ⟨hb, hz, rfl⟩ | ⟨hb, v, i, rfl, hd, hx⟩ |
    ⟨hb, v, why, rfl, hd, rfl⟩ | ⟨hb, reg, v, rfl⟩ | ⟨hb, i, b, rfl, rfl⟩ | ⟨hb, rfl⟩ | ⟨rfl, rfl⟩
  · exact .read rest r n
  · exact .statusWrite v rest hh
  · exact .hazard a rest hh hb hz
  · rcases exec_next hx with ⟨-, e, he, rfl⟩ | ⟨-, he, rfl⟩ | ⟨hb', -⟩
    · exact .rejected v e rest hh hb (.inr ⟨i, hd, by simpa using he⟩)
    · exact .accepted v i rest hh hb hd (by simpa using he)
    · rw [hb] at hb'; cases hb'
  · exact .rejected v .badOp rest hh hb (.inl ⟨why, hd⟩)
  · exact .regStore reg v rest hb
  · exact .byteStore i b rest hb (by simpa [Access.wellFormed] using hw)
  · exact .noEffect rest hb
  · exact .reset rest hh

/-- Every step that answers a next state is one of the events. -/
theorem stepEvent_of_step {s t : State} (h : step s = .next t) : StepEvent s t := by
  rcases step_cases s with ⟨⟨hb, -⟩, hs⟩ | ⟨-, -, hs⟩ | ⟨a, rest, ⟨hh, -⟩, hs⟩ <;> rw [hs] at h
  · exact stepEvent_of_engineTurn hb h
  · cases h
    exact .idle
  · exact stepEvent_of_hostTurn hh h

/-! ### The invariant -/

/-- An accepted START leaves only `BUSY` (R185). -/
theorem statusInv_started (t : Status) : StatusInv (statusStarted t) := by simp [StatusInv]

/-- A rejected START of an idle block leaves only `ERR`, with a code from 1 to 3 (R201, R206). -/
theorem statusInv_raised (e : ErrorCode) {t : Status} (hb : t.busy = false) : StatusInv (statusRaised e t) := by
  cases e <;> simp [StatusInv, hb, errorNumber]

/-- The completion of a running command leaves only `DONE` (R186). -/
theorem statusInv_completed {t : Status} (hb : t.busy = true) (h : StatusInv t) : StatusInv (statusCompleted t) := by
  obtain ⟨-, hbe, -, hcode, hmax⟩ := h
  exact ⟨by simp, by simp, fun hde => hbe ⟨hb, hde.2⟩, hcode, hmax⟩

/-- A write to `STATUS` only clears, `ECODE` with `ERR` (R38). -/
theorem statusInv_statusWrite (v : Word) {t : Status} (h : StatusInv t) : StatusInv (statusWrite v t) := by
  obtain ⟨hbd, hbe, hde, hcode, hmax⟩ := h
  have hdone : (statusWrite v t).done = true → t.done = true := by simp +contextual
  have herr : (statusWrite v t).err = true → t.err = true := by simp +contextual
  refine ⟨fun h => hbd ⟨h.1, hdone h.2⟩, fun h => hbe ⟨h.1, herr h.2⟩, fun h => hde ⟨hdone h.1, herr h.2⟩, ?_, ?_⟩
  · cases hv : v.getLsbD 2 <;> simp only [statusWrite_err, statusWrite_ecode, hv]
    · simpa using hcode
    · simp
  · cases hv : v.getLsbD 2 <;> simp only [statusWrite_ecode, hv]
    · exact hmax
    · exact Nat.zero_le 3

/-- An idle block has no running command. -/
theorem runningInv_of_idle {s : State} (hb : s.status.busy = false) : RunningInv s := by
  intro hb'
  rw [hb] at hb'
  cases hb'

/-- The invariant of the running command reads `BUSY`, `OP`, the configuration and `LEN`. -/
theorem runningInv_congr {s t : State} (hb : t.status.busy = s.status.busy) (ho : t.eng.op = s.eng.op)
    (hp : t.params = s.params) (hl : t.len = s.len) (h : RunningInv s) : RunningInv t := by
  intro hbt
  obtain ⟨i, hop, he⟩ := h (hb ▸ hbt)
  exact ⟨i, ho ▸ hop, startError_congr i hp hl ▸ he⟩

/-- The latched opcode of a command decodes to it (R97). -/
theorem decodeOpcode_opcode (i : Instr) : decodeOpcode i.opcode = .command i := by
  cases i <;> decide

/-- An accepted START latches a command that it accepts (R185). -/
theorem runningInv_acceptStart {i : Instr} {s : State} (he : startError i s = none) :
    RunningInv (acceptStart i.opcode s) :=
  fun _ => ⟨i, decodeOpcode_opcode i, by rw [← he]; exact startError_congr i rfl rfl⟩

/-- The invariant of the buffers reads the configuration, the buffers and `OLEN`. -/
theorem buffersInv_congr {s t : State} (hp : t.params = s.params) (hi : t.ibuf = s.ibuf) (ho : t.obuf = s.obuf)
    (hl : t.olen = s.olen) (h : BuffersInv s) : BuffersInv t := by
  unfold BuffersInv at *
  rwa [hp, hi, ho, hl]

/-- A byte stored inside `IBUF` keeps the buffers (R183). -/
theorem buffersInv_storeIbuf {index : Nat} (b : Byte) {s : State} (hi : index < Space.size s.params .ibuf)
    (h : BuffersInv s) : BuffersInv (storeIbuf index b s) := by
  obtain ⟨hwi, hwo, hin, hout, hol⟩ := h
  refine ⟨Memory.write_wf index b hwi, hwo, fun a ha => ?_, hout, hol⟩
  by_cases hai : a = index
  · exact hai ▸ hi
  · refine hin a ?_
    rwa [storeIbuf_ibuf, Memory.get?_write_ne _ _ hai] at ha

/-- The output of an accepted buffer command is exactly what `OBUF` lists, and it fits (R41). -/
theorem buffersInv_storeOutput {i : Instr} (hi : isBlockCommand i = false) {s : State} (he : startError i s = none)
    (h : BuffersInv s) : BuffersInv (storeOutput (outputOf i s) s) := by
  obtain ⟨hwi, -, hin, -, -⟩ := h
  have holen := olen_storeOutput hi he
  refine ⟨hwi, Memory.writeBytes_wf 0 _ rfl, hin, fun a => ?_, holen ▸ outputOf_length_lt_size hi he⟩
  rw [holen, storeOutput_obuf, Memory.get?_writeBytes]
  by_cases ha : a < (outputOf i s).length <;> simp [ha]

/-- Reset leaves the buffers empty (R44). -/
theorem buffersInv_afterReset (draw : Nat) (p : Params) (host : List Access) (replies : List Reply) :
    BuffersInv (State.afterReset draw p host replies) := by
  refine ⟨rfl, rfl, fun a ha => ?_, fun a => ?_, Nat.succ_pos _⟩
  · cases ha
  · exact ⟨(fun ha => by cases ha), fun ha => absurd ha (Nat.not_lt_zero a)⟩

/-- The state after a reset meets the invariant (R44). -/
theorem inv_afterReset (draw : Nat) (p : Params) (host : List Access) (replies : List Reply) :
    Inv (State.afterReset draw p host replies) :=
  ⟨by simp [StatusInv, State.afterReset, Status.reset], runningInv_of_idle rfl, buffersInv_afterReset draw p host replies⟩

/-- The completion of the command in `OP` keeps the invariant. -/
theorem inv_completion {i : Instr} {s : State} (hb : s.status.busy = true) (he : startError i s = none) (h : Inv s) :
    Inv (complete (runOf i s)) := by
  obtain ⟨hst, -, hbuf⟩ := h
  refine ⟨by simpa using statusInv_completed hb hst, runningInv_of_idle rfl, ?_⟩
  rcases runOf_cases i s with ⟨-, e, hr⟩ | ⟨hi, e, hr⟩ <;> rw [hr]
  · exact buffersInv_congr rfl rfl rfl rfl hbuf
  · exact buffersInv_congr rfl rfl rfl rfl (buffersInv_storeOutput hi he hbuf)

/-- No event changes the configuration (R8). -/
theorem StepEvent.params_eq {s t : State} (h : StepEvent s t) : t.params = s.params := by
  cases h with
  | completion i hb hop he => simp
  | regStore reg v rest hb => simp
  | _ => rfl

/-- Every event keeps the invariant. -/
theorem StepEvent.inv {s t : State} (h : StepEvent s t) (hs : Inv s) : Inv t := by
  have ⟨hst, hrun, hbuf⟩ := hs
  cases h with
  | idle => exact hs
  | completion i hb hop he => exact inv_completion hb he hs
  | read rest r n => exact ⟨hst, hrun, hbuf⟩
  | statusWrite v rest hh => exact ⟨statusInv_statusWrite v hst, hrun, hbuf⟩
  | hazard a rest hh hb hz => exact ⟨hst, hrun, hbuf⟩
  | accepted w i rest hh hb hd he =>
    exact ⟨statusInv_started _, runningInv_acceptStart (by simpa using he), hbuf⟩
  | rejected w e rest hh hb hw => exact ⟨statusInv_raised e hb, runningInv_of_idle hb, hbuf⟩
  | regStore reg v rest hb =>
    obtain ⟨hp, -, -, hl, hstat, hi, ho, -⟩ := storeReg_frame reg v (takeAccess rest s)
    exact ⟨by rwa [hstat], runningInv_of_idle (by rwa [hstat]), buffersInv_congr hp hi ho hl hbuf⟩
  | byteStore index b rest hb hi =>
    exact ⟨hst, runningInv_of_idle hb, buffersInv_storeIbuf b (s := takeAccess rest s) hi hbuf⟩
  | noEffect rest hb => exact ⟨hst, hrun, hbuf⟩
  | reset rest hh => exact inv_afterReset _ _ _ _

/-- Settles O54: every step is an event, and each event keeps the configuration and the invariant. -/
theorem everyStepKeepsTheInvariant : Obligations.EveryStepKeepsTheInvariant := by
  intro s t h
  have hev := stepEvent_of_step h
  exact ⟨hev.params_eq, hev.inv⟩

/-- Settles O53: `State.reset` is the state of a reset. -/
theorem invariantHoldsAtReset : Obligations.InvariantHoldsAtReset := inv_afterReset _ _ _ _

/-! ### Commands: their results, their inputs, and the outputs of the others -/

/-- Settles O31: beyond the output a read of `OBUF` gives the free value of the completion's draw. -/
theorem outputTailIsUnspecified : Obligations.OutputTailIsUnspecified := by
  intro i s t hi hb h a ha
  obtain ⟨holen, hread⟩ := exec_buffer_completes hi hb h
  rw [hread, List.getElem?_eq_none (holen ▸ ha), Option.getD_none]

/-- Settles O32: a START writes `STATUS` and `OP`, a completion `DOUT` or the output, and none of them an input. -/
theorem commandsNeverWriteTheirInputs : Obligations.CommandsNeverWriteTheirInputs := by
  intro i s t h
  rcases exec_next h with ⟨-, e, -, rfl⟩ | ⟨-, -, rfl⟩ | ⟨-, -, rfl⟩
  · simp [readIbuf]
  · simp [readIbuf]
  · rcases runOf_cases i s with ⟨-, e, hr⟩ | ⟨-, e, hr⟩ <;> simp [hr, readIbuf]

/-- Settles O33: a START writes no output, and a completion only that of its own kind of command. -/
theorem commandsKeepTheOthersOutputs : Obligations.CommandsKeepTheOthersOutputs := by
  intro i s t h
  rcases exec_next h with ⟨-, e, -, rfl⟩ | ⟨-, -, rfl⟩ | ⟨-, -, rfl⟩
  · simp [readObuf]
  · simp [readObuf]
  · rcases runOf_cases i s with ⟨hi, e, hr⟩ | ⟨hi, e, hr⟩ <;> simp [hi, hr, readObuf]

/-- Settles O34: the block or the byte sequence that a completion stores is a function of the operands. -/
theorem resultDependsOnlyOnOperands : Obligations.ResultDependsOnlyOnOperands := by
  intro i s₁ s₂ t₁ t₂ hb₁ hb₂ hops h₁ h₂
  cases hi : isBlockCommand i with
  | true =>
    obtain ⟨hhi₁, hlo₁⟩ := exec_block_completes hi hb₁ h₁
    obtain ⟨hhi₂, hlo₂⟩ := exec_block_completes hi hb₂ h₂
    simp only [SameResult, hi, hhi₁, hlo₁, hhi₂, hlo₂, doutOf_congr hi hops, and_self]
  | false =>
    obtain ⟨holen₁, hread₁⟩ := exec_buffer_completes hi hb₁ h₁
    obtain ⟨holen₂, hread₂⟩ := exec_buffer_completes hi hb₂ h₂
    simp only [SameResult, hi]
    refine ⟨BitVec.eq_of_toNat_eq (by rw [holen₁, holen₂, outputOf_congr hops]), fun a ha => ?_⟩
    rw [holen₁] at ha
    rw [hread₁, hread₂, ← outputOf_congr hops, List.getElem?_eq_getElem ha, Option.getD_some, Option.getD_some]

/-! ### The host's accesses -/

/-- In the host's turn a step is its next access, if the architecture has it. -/
theorem step_access {s : State} {a : Access} {rest : List Access} (hm : HostMoves s a rest)
    (hw : a.wellFormed s.params = true) : step s = makeAccess a (takeAccess rest s) := by
  rw [step_host hm]
  exact hostTurn_wellFormed hw

/-- A register access at an aligned offset of the space is one the architecture has (R66). -/
theorem offset_wellFormed {offset : Nat} (h4 : offset % 4 = 0) (h256 : offset < 256) :
    (offsetAligned offset && offsetInSpace offset) = true := by
  simp [offsetAligned, offsetInSpace, h4, h256]

/-- `STATUS` is at no offset but 4. -/
theorem regAt_ne_status {offset : Nat} (h : offset ≠ 0x04) : regAt offset ≠ .status :=
  fun hr => h (regAt_eq_status hr)

/-- The reserved ranges of the register map (R29, R72). -/
theorem regAt_reserved {offset : Nat}
    (h : (0x14 ≤ offset ∧ offset ≤ 0x1C) ∨ (0x38 ≤ offset ∧ offset ≤ 0x3C) ∨ 0x50 ≤ offset) :
    regAt offset = .reserved := by
  unfold regAt
  split
  iterate 15 omega
  rfl

/-- R182: a write to `STATUS`, at any time. -/
theorem hostWrite_status (v : Word) (s : State) :
    hostWrite 0x04 v s = .next (setStatus (statusWrite v s.status) s) := if_pos rfl

/-- R182, R37: a write to any other register while `BUSY = 1`. -/
theorem hostWrite_busy {offset : Nat} (ho : offset ≠ 0x04) (v : Word) {s : State} (hb : s.status.busy = true) :
    hostWrite offset v s = .next (hazard s) := by
  rw [hostWrite, if_neg (regAt_ne_status ho), if_pos hb]

/-- R182: a write to any register but `CMD` and `STATUS` while `BUSY = 0`. -/
theorem hostWrite_idle {offset : Nat} (hs : regAt offset ≠ .status) (hc : regAt offset ≠ .cmd) (v : Word) {s : State}
    (hb : s.status.busy = false) : hostWrite offset v s = .next (storeReg (regAt offset) v s) := by
  rw [hostWrite, if_neg hs, if_neg (by rw [hb]; exact Bool.false_ne_true), if_neg hc]

/-- R183, R37: a byte write while `BUSY = 1`. -/
theorem hostWriteByte_busy (space : Space) (index : Nat) (b : Byte) {s : State} (hb : s.status.busy = true) :
    hostWriteByte space index b s = hazard s := if_pos hb

/-- R181: a read of a register whose value is specified returns it. -/
theorem hostRead_specified {offset : Nat} {s : State} (h : s.status.busy = false ∨ (regAt offset).isOutput = false) :
    hostRead offset s = reply (.word offset (regValue s (regAt offset))) s := by
  rw [hostRead, if_neg]
  rcases h with h | h <;> simp [h]

/-- A register holds the same while an access is taken. -/
@[simp] theorem regValue_takeAccess (rest : List Access) (s : State) (reg : Reg) :
    regValue (takeAccess rest s) reg = regValue s reg := by
  cases reg <;> rfl

/-- Settles O42: the write is one of the two that are discarded while `BUSY = 1`. -/
theorem writeWhileBusyIsDiscarded : Obligations.WriteWhileBusyIsDiscarded := by
  intro s a rest hb hm hw ha
  rw [step_access hm hw]
  rcases ha with ⟨offset, v, rfl, ho⟩ | ⟨space, index, b, rfl⟩
  · exact hostWrite_busy ho v hb
  · exact congrArg Host.Outcome.next (hostWriteByte_busy space index b hb)

/-- Settles O44: such a register is `OLEN`, `DOUT_HI`, `DOUT_LO` or reserved, and a store to it stores nothing. -/
theorem writesToReadOnlyAreDiscarded : Obligations.WritesToReadOnlyAreDiscarded := by
  intro s offset v rest hb hh h4 h256 ho
  rw [step_access ⟨hh, .inl hb⟩ (offset_wellFormed h4 h256)]
  have hreg : regAt offset = .olen ∨ regAt offset = .doutHi ∨ regAt offset = .doutLo ∨ regAt offset = .reserved := by
    rcases ho with rfl | rfl | rfl | ho
    · exact .inl rfl
    · exact .inr (.inl rfl)
    · exact .inr (.inr (.inl rfl))
    · exact .inr (.inr (.inr (regAt_reserved ho)))
  have hwrite : hostWrite offset v (takeAccess rest s) = .next (storeReg (regAt offset) v (takeAccess rest s)) :=
    hostWrite_idle (by rcases hreg with h | h | h | h <;> simp [h]) (by rcases hreg with h | h | h | h <;> simp [h]) v hb
  rw [makeAccess, hwrite]
  rcases hreg with h | h | h | h <;> rw [h] <;> rfl

/-- Settles O45: each offset names its register, whose value the read returns. -/
theorem registerReadsReturnTheRegister : Obligations.RegisterReadsReturnTheRegister := by
  intro s offset rest v hm hv
  have hread : (Access.rd offset).wellFormed s.params = true ∧
      (s.status.busy = false ∨ (regAt offset).isOutput = false) ∧ v = regValue s (regAt offset) := by
    rcases hv with ⟨rfl, hv⟩ | ⟨rfl, hv⟩ | ⟨rfl, hv⟩ | ⟨rfl, hv⟩ | ⟨rfl, hv⟩ | ⟨rfl, hv⟩ | ⟨rfl, hv⟩ | ⟨rfl, hv⟩ |
      ⟨rfl, hv⟩ | ⟨rfl, hv⟩ | ⟨rfl, hv⟩ | ⟨hb, rfl, hv⟩ | ⟨hb, rfl, hv⟩ | ⟨hb, rfl, hv⟩ | ⟨hv, h4, h256, rfl | ho⟩
    iterate 11 exact ⟨rfl, .inr rfl, hv⟩
    iterate 3 exact ⟨rfl, .inl hb, hv⟩
    · exact ⟨rfl, .inr rfl, hv⟩
    · rw [regAt_reserved ho]
      exact ⟨offset_wellFormed h4 h256, .inr rfl, hv⟩
  obtain ⟨hw, hspec, hval⟩ := hread
  rw [step_access hm hw, makeAccess, hostRead_specified (s := takeAccess rest s) hspec, regValue_takeAccess, ← hval]
  rfl

/-- Settles O41: a write to `STATUS` is `statusWrite`, at any time. -/
theorem statusWriteClears : Obligations.StatusWriteClears := by
  intro s v rest hm
  refine ⟨setStatus (statusWrite v s.status) (takeAccess rest s), ?_, rfl, rfl, rfl, rfl, rfl, rfl, rfl⟩
  rw [step_access hm rfl]
  exact hostWrite_status v _

/-! ### The layout of `STATUS` and reset -/

/-- `STATUS` is `ECODE` with the four flags below it (R33). -/
theorem statusWord_eq_concat (t : Status) : statusWord t =
    (((((0 : BitVec 24) ++ t.ecode).concat t.hzd).concat t.err).concat t.done).concat t.busy := rfl

/-- The unsigned value of `STATUS`. -/
theorem statusWord_toNat (t : Status) : (statusWord t).toNat =
    (((t.ecode.toNat * 2 + t.hzd.toNat) * 2 + t.err.toNat) * 2 + t.done.toNat) * 2 + t.busy.toNat := by
  simp only [statusWord_eq_concat, BitVec.toNat_concat, BitVec.toNat_append]
  simp

/-- `ECODE` is all of `STATUS` above bit 3 (R33). -/
theorem statusWord_div_16 (t : Status) : (statusWord t).toNat / 16 = t.ecode.toNat := by
  have hbusy := Bool.toNat_le t.busy
  have hdone := Bool.toNat_le t.done
  have herr := Bool.toNat_le t.err
  have hhzd := Bool.toNat_le t.hzd
  rw [statusWord_toNat]
  omega

/-- Settles O40: the flags are the four lowest bits, and `ECODE` is what stands above them. -/
theorem statusLayout : Obligations.StatusLayout := by
  intro t
  refine ⟨?_, statusWord_done t, ?_, ?_, statusWord_div_16 t⟩
  · simp [statusWord_eq_concat]
  · simp [statusWord_eq_concat]
  · simp [statusWord_eq_concat]

/-- `STATUS` reads 0 after reset (R44). -/
theorem statusWord_reset : statusWord Status.reset = 0 := by decide

/-- Settles O52: the reset access leaves the state of R44. -/
theorem resetValues : Obligations.ResetValues := by
  refine ⟨fun s rest hm => ?_, statusWord_reset, rfl, rfl, rfl⟩
  exact ⟨applyReset (takeAccess rest s), step_access hm rfl, statusWord_reset, rfl, rfl, rfl, rfl, rfl, rfl, rfl⟩

/-! ### The flags over a step -/

/-- What a step can do to `STATUS`: nothing, or what one of the events that write it does. -/
inductive StatusChange (s t : State) : Prop
  | kept (h : t.status = s.status)
  | completed (i : Instr) (hb : s.status.busy = true) (hop : decodeOpcode s.eng.op = .command i)
      (hx : exec i s = .next t) (h : t.status = statusCompleted s.status)
  | written (v : Word) (rest : List Access) (hh : s.host = .wr 0x04 v :: rest) (h : t.status = statusWrite v s.status)
  | hazard (a : Access) (rest : List Access) (hh : s.host = a :: rest) (hb : s.status.busy = true)
      (hz : a.isHazard = true) (h : t.status = statusHazard s.status)
  | accepted (w : Word) (i : Instr) (rest : List Access) (hh : s.host = .wr 0x00 w :: rest) (hb : s.status.busy = false)
      (hd : decode w = .command i) (he : startError i s = none) (hop : t.eng.op = i.opcode)
      (h : t.status = statusStarted s.status)
  | rejected (w : Word) (e : ErrorCode) (rest : List Access) (hh : s.host = .wr 0x00 w :: rest)
      (hb : s.status.busy = false)
      (hw : (∃ why, decode w = .illegal why) ∨ ∃ i, decode w = .command i ∧ startError i s = some e)
      (h : t.status = statusRaised e s.status)
  | reset (rest : List Access) (hh : s.host = .reset :: rest) (h : t.status = Status.reset)

/-- Every event changes `STATUS` in one of these ways. -/
theorem StepEvent.statusChange {s t : State} (h : StepEvent s t) : StatusChange s t := by
  cases h with
  | completion i hb hop he =>
    exact .completed i hb hop (by rw [exec_eq_command]; exact command_completes hb he) (by simp)
  | statusWrite v rest hh => exact .written v rest hh rfl
  | hazard a rest hh hb hz => exact .hazard a rest hh hb hz rfl
  | accepted w i rest hh hb hd he => exact .accepted w i rest hh hb hd he rfl rfl
  | rejected w e rest hh hb hw => exact .rejected w e rest hh hb hw rfl
  | reset rest hh => exact .reset rest hh rfl
  | regStore reg v rest hb => exact .kept (by simp)
  | idle | read | byteStore | noEffect => exact .kept rfl

/-- Every step changes `STATUS` in one of these ways. -/
theorem statusChange_of_step {s t : State} (h : step s = .next t) : StatusChange s t := (stepEvent_of_step h).statusChange

/-- The accesses that set `HZD` are the writes to a register that is not `STATUS` and to a byte (R37). -/
theorem isHazard_iff (a : Access) : a.isHazard = true ↔
    (∃ offset v, a = .wr offset v ∧ offset ≠ 0x04) ∨ ∃ space index b, a = .wrb space index b := by
  cases a <;> simp [Access.isHazard]

/-- Settles O56: only an accepted START sets `BUSY`; only the completion and reset clear it. -/
theorem busyChangesOnlyByStartCompletionReset : Obligations.BusyChangesOnlyByStartCompletionReset := by
  intro s t h
  cases statusChange_of_step h with
  | completed i hb hop hx h => exact ⟨by simp [hb], fun _ _ => .inl ⟨by simp [h], i, hop, hx⟩⟩
  | accepted w i rest hh hb hd he hop h => exact ⟨fun _ _ => ⟨w, rest, i, hh, hd, he, hop⟩, by simp [hb]⟩
  | reset rest hh h => exact ⟨by simp [h, Status.reset], fun _ _ => .inr ⟨rest, hh⟩⟩
  | kept h | written _ _ _ h | hazard _ _ _ _ _ h | rejected _ _ _ _ _ _ h =>
    constructor <;> simp +contextual [h]

/-- Only a completion sets `DONE` (R35). -/
theorem done_set {s t : State} (h : StatusChange s t) (h0 : s.status.done = false) (h1 : t.status.done = true) :
    ∃ i, s.status.busy = true ∧ decodeOpcode s.eng.op = .command i ∧ exec i s = .next t := by
  cases h with
  | completed i hb hop hx h => exact ⟨i, hb, hop, hx⟩
  | kept h | written _ _ _ h | hazard _ _ _ _ _ h | accepted _ _ _ _ _ _ _ _ h | rejected _ _ _ _ _ _ h | reset _ _ h =>
    simp [h, h0, Status.reset] at h1

/-- Only a START, a write of 1 to bit 1 of `STATUS` and reset clear `DONE` (R35). -/
theorem done_cleared {s t : State} (h : StatusChange s t) (h1 : s.status.done = true) (h0 : t.status.done = false) :
    ∃ rest, (s.status.busy = false ∧ ∃ w, s.host = .wr 0x00 w :: rest) ∨
      (∃ v, s.host = .wr 0x04 v :: rest ∧ v.getLsbD 1 = true) ∨ s.host = .reset :: rest := by
  cases h with
  | written v rest hh h => exact ⟨rest, .inr (.inl ⟨v, hh, by simpa [h, h1] using h0⟩)⟩
  | accepted w i rest hh hb => exact ⟨rest, .inl ⟨hb, w, hh⟩⟩
  | rejected w e rest hh hb => exact ⟨rest, .inl ⟨hb, w, hh⟩⟩
  | reset rest hh => exact ⟨rest, .inr (.inr hh)⟩
  | kept h | completed _ _ _ _ h | hazard _ _ _ _ _ h => simp [h, h1] at h0

/-- Only a rejected START sets `ERR` (R36). -/
theorem err_set {s t : State} (h : StatusChange s t) (h0 : s.status.err = false) (h1 : t.status.err = true) :
    s.status.busy = false ∧ ∃ w rest, s.host = .wr 0x00 w :: rest ∧
      ((∃ why, decode w = .illegal why) ∨ ∃ i e, decode w = .command i ∧ startError i s = some e) := by
  cases h with
  | rejected w e rest hh hb hw =>
    refine ⟨hb, w, rest, hh, hw.imp_right ?_⟩
    rintro ⟨i, hd, he⟩
    exact ⟨i, e, hd, he⟩
  | kept h | completed _ _ _ _ h | written _ _ _ h | hazard _ _ _ _ _ h | accepted _ _ _ _ _ _ _ _ h | reset _ _ h =>
    simp [h, h0, Status.reset] at h1

/-- Only an accepted START, a write of 1 to bit 2 of `STATUS` and reset clear `ERR` (R36). -/
theorem err_cleared {s t : State} (h : StatusChange s t) (h1 : s.status.err = true) (h0 : t.status.err = false) :
    ∃ rest, (s.status.busy = false ∧ ∃ w i, s.host = .wr 0x00 w :: rest ∧ decode w = .command i ∧ startError i s = none) ∨
      (∃ v, s.host = .wr 0x04 v :: rest ∧ v.getLsbD 2 = true) ∨ s.host = .reset :: rest := by
  cases h with
  | written v rest hh h => exact ⟨rest, .inr (.inl ⟨v, hh, by simpa [h, h1] using h0⟩)⟩
  | accepted w i rest hh hb hd he => exact ⟨rest, .inl ⟨hb, w, i, hh, hd, he⟩⟩
  | reset rest hh => exact ⟨rest, .inr (.inr hh)⟩
  | kept h | completed _ _ _ _ h | hazard _ _ _ _ _ h | rejected _ _ _ _ _ _ h => simp [h, h1] at h0

/-- Settles O57: the four rules of R35 and R36, one for each flag and direction. -/
theorem doneAndErrChangeOnlyAsStated : Obligations.DoneAndErrChangeOnlyAsStated := by
  intro s t h
  have hc := statusChange_of_step h
  exact ⟨done_set hc, done_cleared hc, err_set hc, err_cleared hc⟩

/-- Settles O58: a discarded write sets `HZD`; a write of 1 to its bit and reset clear it. -/
theorem hazardFlagIsSticky : Obligations.HazardFlagIsSticky := by
  intro s t h
  cases statusChange_of_step h with
  | hazard a rest hh hb hz h =>
    refine ⟨fun _ _ => ⟨hb, rest, ?_⟩, by simp [h]⟩
    rcases (isHazard_iff a).mp hz with ⟨offset, v, rfl, ho⟩ | ⟨space, index, b, rfl⟩
    · exact .inl ⟨offset, v, hh, ho⟩
    · exact .inr ⟨space, index, b, hh⟩
  | written v rest hh h =>
    refine ⟨by simp +contextual [h], fun h1 h0 => ⟨rest, .inl ⟨v, hh, ?_⟩⟩⟩
    simpa [h, h1] using h0
  | reset rest hh h => exact ⟨by simp [h, Status.reset], fun _ _ => ⟨rest, .inr hh⟩⟩
  | kept h | completed _ _ _ _ h | accepted _ _ _ _ _ _ _ _ h | rejected _ _ _ _ _ _ h =>
    constructor <;> simp +contextual [h]

end Sys2Proof.Machine
end

section
/-! SUPPORT. The memory family: the byte order of a block, which host accesses are refused, and what reads and a running
command leave unchanged, with the proofs of the statements of spec/20_memory.md from them. -/

namespace Sys2Proof.Machine

/-! ### Byte order -/

/-- The unsigned value of a concatenation: the upper part counts in units of the lower part's range. -/
theorem toNat_append_eq_mul_add {m n : Nat} (x : BitVec m) (y : BitVec n) :
    (x ++ y).toNat = x.toNat * 2 ^ n + y.toNat := by
  rw [BitVec.toNat_append, ← Nat.shiftLeft_add_eq_or_of_lt y.isLt, Nat.shiftLeft_eq]

/-- The unsigned value of a bit field. -/
theorem toNat_extractLsb' {w : Nat} (start len : Nat) (x : BitVec w) :
    (x.extractLsb' start len).toNat = x.toNat / 2 ^ start % 2 ^ len := by
  rw [BitVec.extractLsb'_toNat, Nat.shiftRight_eq_div_pow]

/-- R60: `be64` is the big-endian sum of its bytes. -/
theorem be64_toNat (a b c d e f g h : Byte) : (be64 a b c d e f g h).toNat =
    a.toNat * 2 ^ 56 + b.toNat * 2 ^ 48 + c.toNat * 2 ^ 40 + d.toNat * 2 ^ 32 +
      e.toNat * 2 ^ 24 + f.toNat * 2 ^ 16 + g.toNat * 2 ^ 8 + h.toNat := by
  simp only [be64, toNat_append_eq_mul_add]
  omega

/-- R62: the first four bytes of a block are its left half. -/
theorem leftHalf_be64_toNat (a b c d e f g h : Byte) : (leftHalf (be64 a b c d e f g h)).toNat =
    a.toNat * 2 ^ 24 + b.toNat * 2 ^ 16 + c.toNat * 2 ^ 8 + d.toNat := by
  rw [leftHalf, toNat_extractLsb', be64_toNat]
  omega

/-- R62: the last four bytes of a block are its right half. -/
theorem rightHalf_be64_toNat (a b c d e f g h : Byte) : (rightHalf (be64 a b c d e f g h)).toNat =
    e.toNat * 2 ^ 24 + f.toNat * 2 ^ 16 + g.toNat * 2 ^ 8 + h.toNat := by
  rw [rightHalf, toNat_extractLsb', be64_toNat]
  omega

/-- R61: byte `i` of a block is the field of eight bits whose lowest is `56 - 8 i`. -/
theorem bytes8_eq_map (v : Block) : bytes8 v = (List.range 8).map fun i => v.extractLsb' (56 - 8 * i) 8 := rfl

/-- R61: the value of byte `i` of a block. -/
theorem bytes8_getElem?_toNat (v : Block) {i : Nat} (hi : i < 8) :
    ((bytes8 v)[i]?).map BitVec.toNat = some (v.toNat / 2 ^ (56 - 8 * i) % 256) := by
  rw [bytes8_eq_map, List.getElem?_map, List.getElem?_range hi]
  exact congrArg some (toNat_extractLsb' _ _ _)

/-- R61: the bytes of the block of eight bytes are these bytes. -/
@[simp] theorem bytes8_be64 (a b c d e f g h : Byte) : bytes8 (be64 a b c d e f g h) = [a, b, c, d, e, f, g, h] := by
  simp only [bytes8, List.cons.injEq, and_true, ← BitVec.toNat_inj, toNat_extractLsb', be64_toNat]
  omega

/-- R60, R61: the block of the bytes of a block is this block. -/
@[simp] theorem blocksOf_bytes8 (v : Block) : blocksOf (bytes8 v) = [v] := by
  simp only [bytes8, blocksOf, List.cons.injEq, and_true, ← BitVec.toNat_inj, be64_toNat, toNat_extractLsb']
  omega

/-- Settles O7: all four clauses compare unsigned values, which the big-endian sum and the byte fields give. -/
theorem byteOrderIsBigEndian : Obligations.ByteOrderIsBigEndian :=
  ⟨fun a b c d e f g h => ⟨be64_toNat a b c d e f g h, leftHalf_be64_toNat a b c d e f g h,
      rightHalf_be64_toNat a b c d e f g h, bytes8_be64 a b c d e f g h⟩,
    fun v => ⟨blocksOf_bytes8 v, rfl, fun _ hi => bytes8_getElem?_toNat v hi⟩⟩

/-! ### Reads -/

/-- R70: a read of a register or of a buffer byte appends one value to the host's record, and of the rest of the state it
moves only the count of draws. -/
theorem makeAccess_read_eq {a : Access} (ha : (∃ offset, a = .rd offset) ∨ ∃ space index, a = .rdb space index) (s : State) :
    ∃ r n, makeAccess a s = .next { s with replies := s.replies ++ [r], draws := n } := by
  rcases ha with ⟨offset, rfl⟩ | ⟨space, index, rfl⟩
  · obtain ⟨r, n, hr⟩ := hostRead_eq offset s
    exact ⟨r, n, congrArg Host.Outcome.next hr⟩
  · obtain ⟨r, n, hr⟩ := hostReadByte_eq space index s
    exact ⟨r, n, congrArg Host.Outcome.next hr⟩

/-- Settles O46: the step is the read, which touches nothing of the block. -/
theorem readsHaveNoSideEffect : Obligations.ReadsHaveNoSideEffect := by
  intro s a rest hm hw ha
  obtain ⟨r, n, hr⟩ := makeAccess_read_eq ha (takeAccess rest s)
  exact ⟨_, r, (step_access hm hw).trans hr, rfl, rfl, rfl⟩

/-! ### Refused accesses -/

/-- R182: no register write is refused: the command it may start never is. -/
theorem hostWrite_not_refused (offset : Nat) (v : Word) (s : State) (why : Refusal) :
    hostWrite offset v s ≠ .refused why := by
  intro hr
  rcases hostWrite_cases offset v s with ⟨-, hx⟩ | ⟨-, -, hx⟩ | ⟨-, -, i, -, hx⟩ | ⟨-, -, -, hx⟩ | ⟨-, -, hx⟩ <;>
    rw [hx] at hr
  case inr.inr.inl => exact exec_not_refused i s why hr
  all_goals cases hr

/-- An access that is made is not refused. -/
theorem makeAccess_not_refused (a : Access) (s : State) (why : Refusal) : makeAccess a s ≠ .refused why := by
  cases a with
  | wr offset v => exact hostWrite_not_refused offset v s why
  | rd | rdb | wrb | wait | reset => nofun

/-- In the host's turn a step is refused exactly when the access is not well-formed. -/
theorem step_refused_iff {s : State} {a : Access} {rest : List Access} (hm : HostMoves s a rest) :
    (∃ why, step s = .refused why) ↔ a.wellFormed s.params = false := by
  cases hw : a.wellFormed s.params with
  | false => exact iff_of_true (step_host hm ▸ hostTurn_not_wellFormed hw) rfl
  | true =>
    refine iff_of_false ?_ Bool.noConfusion
    rintro ⟨why, hr⟩
    exact makeAccess_not_refused a _ why ((step_access hm hw).symm.trans hr)

/-- R66: an offset is not one of the register space when it is misaligned or beyond `0xFC`. -/
theorem offset_not_wellFormed_iff (offset : Nat) :
    (offsetAligned offset && offsetInSpace offset) = false ↔ offset % 4 ≠ 0 ∨ 256 ≤ offset := by
  simp only [Bool.and_eq_false_iff, offsetAligned, offsetInSpace, beq_eq_false_iff_ne, decide_eq_false_iff_not, Nat.not_lt]

/-- R66, R67: the accesses that the architecture does not have. -/
theorem not_wellFormed_iff (p : Params) (a : Access) : a.wellFormed p = false ↔
    (∃ offset, (a = .rd offset ∨ ∃ v, a = .wr offset v) ∧ (offset % 4 ≠ 0 ∨ 256 ≤ offset)) ∨
    (∃ index, (a = .rdb .ibuf index ∨ ∃ b, a = .wrb .ibuf index b) ∧ p.maxlen.val ≤ index) ∨
    ∃ index, (a = .rdb .obuf index ∨ ∃ b, a = .wrb .obuf index b) ∧ p.maxlen.val + 16 ≤ index := by
  cases a with
  | rd offset => rw [Access.wellFormed, offset_not_wellFormed_iff]; simp
  | wr offset v => rw [Access.wellFormed, offset_not_wellFormed_iff]; simp
  | rdb space index => cases space <;> simp [Access.wellFormed, Space.size]
  | wrb space index b => cases space <;> simp [Access.wellFormed, Space.size]
  | wait => simp [Access.wellFormed]
  | reset => simp [Access.wellFormed]

/-- Settles O49: the refused accesses are those that are not well-formed. -/
theorem onlyForeignAccessesAreRefused : Obligations.OnlyForeignAccessesAreRefused :=
  fun s a _ hm => (step_refused_iff hm).trans (not_wellFormed_iff s.params a)

/-! ### The operands of a running command -/

/-- Settles O59: while `BUSY = 1` a step is the completion, which writes only outputs, or a read, a write to `STATUS` or a
discarded write; the events that store an operand need `BUSY = 0`. -/
theorem operandsAreFixedWhileBusy : Obligations.OperandsAreFixedWhileBusy := by
  intro s t hbusy h hreset
  cases stepEvent_of_step h with
  | completion i hb hop he =>
    rcases runOf_cases i s with ⟨-, e, hr⟩ | ⟨-, e, hr⟩ <;> rw [hr] <;> exact ⟨rfl, rfl, rfl, rfl, rfl, fun _ => rfl⟩
  | idle | read | statusWrite | hazard => exact ⟨rfl, rfl, rfl, rfl, rfl, fun _ => rfl⟩
  | reset rest hh => exact absurd hh (hreset rest)
  | accepted _ _ _ _ hb | rejected _ _ _ _ hb | regStore _ _ _ hb | byteStore _ _ _ hb | noEffect _ hb =>
    rw [hbusy] at hb
    cases hb

end Sys2Proof.Machine
end

section
/-! SUPPORT. The encoding family: the decoder as a function of the unsigned value of the command word, the encoder as its inverse,
and the `wait` of the host notation, with the proofs of the statements of spec/30_encoding.md from them. -/

namespace Sys2Proof.Machine

/-! ### Fields and words as numbers -/

/-- R90: `RSV` is zero exactly when only the three bits of `OPCODE` can be set. -/
theorem rsvField_eq_zero_iff (w : Word) : rsvField w = 0 ↔ w.toNat < 8 := by
  have hrsv : (rsvField w).toNat = w.toNat / 8 % 2 ^ 29 := toNat_extractLsb' 3 29 w
  have hzero : (0 : BitVec 29).toNat = 0 := rfl
  rw [← BitVec.toNat_inj, hrsv, hzero]
  omega

/-- R90: `OPCODE` is the three lowest bits. -/
theorem opcodeField_toNat (w : Word) : (opcodeField w).toNat = w.toNat % 8 := by
  rw [opcodeField, toNat_extractLsb']
  omega

/-- R90: the opcode of a command is `MODE * 2 + DIR`. -/
theorem opcode_toNat (i : Instr) : i.opcode.toNat = i.mode.toNat * 2 + i.dir.toNat :=
  toNat_append_eq_mul_add i.mode i.dir

/-- R97: the word of a command has the value of its opcode. -/
theorem encode_toNat (i : Instr) : (encode i).toNat = i.opcode.toNat := by
  rw [encode, toNat_append_eq_mul_add, BitVec.ofNat_eq_ofNat, BitVec.toNat_ofNat, Nat.zero_mod, Nat.zero_mul, Nat.zero_add]

/-- A word is the word of a command exactly when it has the value of its opcode. -/
theorem eq_encode_iff (w : Word) (i : Instr) : w = encode i ↔ w.toNat = i.opcode.toNat := by
  rw [← BitVec.toNat_inj, encode_toNat]

/-! ### The decoder -/

/-- R97: an opcode selects a command exactly when it is the command's own. -/
theorem decodeOpcode_eq_command_iff (op : BitVec 3) (i : Instr) : decodeOpcode op = .command i ↔ op = i.opcode := by
  constructor
  · cases i <;> decide +revert
  · rintro rfl
    exact decodeOpcode_opcode i

/-- R93: an opcode is illegal, always by `MODE`, exactly when it is 6 or 7. -/
theorem decodeOpcode_eq_illegal_iff (op : BitVec 3) (why : IllegalWord) :
    decodeOpcode op = .illegal why ↔ why = .reservedMode ∧ 6 ≤ op.toNat := by
  cases why <;> decide +revert

/-- R97: with `RSV` zero the opcode decides. -/
theorem decode_of_lt {w : Word} (h : w.toNat < 8) : decode w = decodeOpcode (opcodeField w) :=
  if_neg (not_not_intro ((rsvField_eq_zero_iff w).mpr h))

/-- R93: a set bit of `RSV` makes the word illegal, whatever its opcode. -/
theorem decode_of_ge {w : Word} (h : 8 ≤ w.toNat) : decode w = .illegal .reservedBits :=
  if_pos (mt (rsvField_eq_zero_iff w).mp (Nat.not_lt.mpr h))

/-- R97: a word selects a command exactly when it is the command's encoding. -/
theorem decode_eq_command_iff (w : Word) (i : Instr) : decode w = .command i ↔ w = encode i := by
  rw [eq_encode_iff]
  rcases Nat.lt_or_ge w.toNat 8 with h | h
  · rw [decode_of_lt h, decodeOpcode_eq_command_iff, ← BitVec.toNat_inj, opcodeField_toNat, Nat.mod_eq_of_lt h]
  · have hop : i.opcode.toNat < 8 := i.opcode.isLt
    rw [decode_of_ge h]
    exact iff_of_false Decoded.noConfusion (by omega)

/-- R97: the decoder reads an encoded command back. -/
@[simp] theorem decode_encode (i : Instr) : decode (encode i) = .command i :=
  (decode_eq_command_iff _ i).mpr rfl

/-- R93: a word is illegal by `MODE` exactly when it is 6 or 7. -/
theorem decode_eq_reservedMode_iff (w : Word) : decode w = .illegal .reservedMode ↔ w.toNat = 6 ∨ w.toNat = 7 := by
  rcases Nat.lt_or_ge w.toNat 8 with h | h
  · rw [decode_of_lt h, decodeOpcode_eq_illegal_iff, opcodeField_toNat]
    simp only [true_and]
    omega
  · rw [decode_of_ge h]
    exact iff_of_false (by decide) (by omega)

/-- R93: a word is illegal by `RSV` exactly when it is 8 or more. -/
theorem decode_eq_reservedBits_iff (w : Word) : decode w = .illegal .reservedBits ↔ 8 ≤ w.toNat := by
  refine ⟨fun hd => ?_, decode_of_ge⟩
  by_contra h
  rw [decode_of_lt (Nat.not_le.mp h), decodeOpcode_eq_illegal_iff] at hd
  obtain ⟨⟨⟩, -⟩ := hd

/-- Settles O18: the encoding of each command is the word of its number, and the two kinds of illegal words are the others. -/
theorem decoderSelectsExactlySixWords : Obligations.DecoderSelectsExactlySixWords := by
  intro w
  have hword (i : Instr) : decode w = .command i ↔ w.toNat = i.opcode.toNat :=
    (decode_eq_command_iff w i).trans (eq_encode_iff w i)
  exact ⟨hword .encBlk, hword .decBlk, hword .ecbEnc, hword .ecbDec, hword .cbcEnc, hword .cbcDec,
    decode_eq_reservedMode_iff w, decode_eq_reservedBits_iff w, decode_eq_command_iff w⟩

/-- Settles O17: the first six words are encodings, the next two have the values 6 and 7, the last two are at least 8. -/
theorem commandWordsDecode : Obligations.CommandWordsDecode :=
  ⟨decode_encode .encBlk, decode_encode .decBlk, decode_encode .ecbEnc, decode_encode .ecbDec, decode_encode .cbcEnc,
    decode_encode .cbcDec,
    (decode_eq_reservedMode_iff _).mpr (.inl rfl), (decode_eq_reservedMode_iff _).mpr (.inr rfl),
    decode_of_ge (by decide), decode_of_ge (by decide)⟩

/-! ### The encoder -/

/-- R97: distinct commands have distinct words. -/
theorem encode_injective : Function.Injective encode := by
  intro i j h
  have hd := (decode_eq_command_iff (encode i) j).mpr h
  rw [decode_encode] at hd
  exact Decoded.command.inj hd

/-- The decoder of table words reads a 32-bit word like the decoder of command words. -/
theorem decodeTableWord_encode (i : Instr) : decodeTableWord 32 (encode i).toNat = some i := by
  have hword : BitVec.ofNat 32 ((encode i).toNat % 2 ^ 32) = encode i := by
    rw [Nat.mod_eq_of_lt (encode i).isLt, BitVec.ofNat_toNat, BitVec.setWidth_eq]
  rw [decodeTableWord, if_pos (Nat.le_refl 32), hword, decode_encode]

/-- Settles O19: each clause is the law of its decoder; the encoder is injective because it has a left inverse. -/
theorem decodeOfEncode : Obligations.DecodeOfEncode := fun i =>
  ⟨decode_encode i, (encode_toNat i).trans (opcode_toNat i), decodeOpcode_opcode i, decodeTableWord_encode i,
    fun _ h => encode_injective h⟩

/-! ### `wait` -/

/-- The pseudocode of a command moves none of the host's accesses. -/
@[simp] theorem runOf_host (i : Instr) (s : State) : (runOf i s).host = s.host := by
  rcases runOf_cases i s with ⟨-, e, hr⟩ | ⟨-, e, hr⟩ <;> simp [hr]

/-- R186: the engine's turn runs the command in `OP`. -/
theorem engineTurn_command {i : Instr} {s : State} (hop : decodeOpcode s.eng.op = .command i) :
    engineTurn s = exec i s := by
  rw [engineTurn, hop]

/-- R186: a running command that START accepts completes. -/
theorem exec_completes {i : Instr} {s : State} (hb : s.status.busy = true) (he : startError i s = none) :
    exec i s = .next (complete (runOf i s)) :=
  (exec_eq_command i s).trans (command_completes hb he)

/-- R190: with `BUSY = 0` a `wait` is the read of `STATUS` that ends it. -/
theorem step_wait_idle {s : State} {rest : List Access} (hb : s.status.busy = false) (hh : s.host = .wait :: rest) :
    step s = .next (reply (.word 0x04 (statusWord s.status)) (takeAccess rest s)) := by
  have hread : hostRead 0x04 (takeAccess rest s) = reply (.word 0x04 (statusWord s.status)) (takeAccess rest s) :=
    hostRead_specified (.inl hb)
  rw [step_access ⟨hh, .inl hb⟩ rfl, makeAccess, hread]

/-- Settles O51: with `BUSY = 0` the step is the read of `STATUS`; with `BUSY = 1` a waiting host leaves the turn to the engine,
whose completion writes `STATUS` and leaves the host's accesses. -/
theorem waitReadsStatusWhenIdle : Obligations.WaitReadsStatusWhenIdle := by
  intro s rest hh
  refine ⟨fun hb => step_wait_idle hb hh, fun hb => ?_⟩
  have hengine : step s = engineTurn s := step_engine ⟨hb, .inr (.inr ⟨rest, hh⟩)⟩
  refine ⟨hengine, fun i hop he => ⟨complete (runOf i s), ?_, exec_completes hb he, ?_, ?_⟩⟩
  · rw [hengine, engineTurn_command hop, exec_completes hb he]
  · rw [complete, setStatus_status, runOf_status]
    rfl
  · rw [complete, setStatus_host, runOf_host, hh]

end Sys2Proof.Machine
end

section
/-! SUPPORT. The block engine family: the laws of the 32-bit primitives, of the two halves of a block and of the rounds, and the
proofs of the statements of spec/40_block_engine.md from them. -/

namespace Sys2Proof.Machine

/-! ### The primitives -/

/-- R110: the unsigned value of a sum. -/
theorem add32_toNat (a b : Word) : (add32 a b).toNat = (a.toNat + b.toNat) % 2 ^ 32 := BitVec.toNat_add a b

/-- R111: the unsigned value of a difference. -/
theorem sub32_toNat (a b : Word) : (sub32 a b).toNat = (a.toNat + 2 ^ 32 - b.toNat) % 2 ^ 32 := by
  have hb := b.isLt
  rw [sub32, BitVec.toNat_sub', Nat.add_sub_assoc hb.le a.toNat]

/-- R111: subtraction undoes addition. -/
@[simp] theorem sub32_add32 (a b : Word) : sub32 (add32 a b) b = a := BitVec.add_sub_cancel a b

/-- R111: addition undoes subtraction. -/
@[simp] theorem add32_sub32 (a b : Word) : add32 (sub32 a b) b = a := BitVec.sub_add_cancel a b

/-- R112: the unsigned value of the shift to the left. -/
theorem shl4_toNat (a : Word) : (shl4 a).toNat = a.toNat * 16 % 2 ^ 32 := by
  rw [shl4, BitVec.toNat_shiftLeft, Nat.shiftLeft_eq]

/-- R113: the unsigned value of the shift to the right. -/
theorem shr5_toNat (a : Word) : (shr5 a).toNat = a.toNat / 32 := by
  rw [shr5, BitVec.toNat_ushiftRight, Nat.shiftRight_eq_div_pow]

/-- R115: the unsigned value of a product. -/
theorem mul32_toNat (a b : Word) : (mul32 a b).toNat = a.toNat * b.toNat % 2 ^ 32 := BitVec.toNat_mul a b

/-- R115: a product with 0. -/
@[simp] theorem mul32_ofNat_zero (a : Word) : mul32 a (BitVec.ofNat 32 0) = 0 := BitVec.mul_zero

/-- R115: a product with `n + 1` is one more addition. -/
theorem mul32_ofNat_succ (a : Word) (n : Nat) :
    mul32 a (BitVec.ofNat 32 (n + 1)) = add32 (mul32 a (BitVec.ofNat 32 n)) a := by
  rw [mul32, BitVec.ofNat_add, BitVec.mul_succ, mul32, add32]

/-- Settles O1: each clause is the law of its primitive. -/
theorem primitivesAreUnsignedArithmetic : Obligations.PrimitivesAreUnsignedArithmetic := fun a b c =>
  ⟨add32_toNat a b, sub32_toNat a b, sub32_add32 a b, add32_sub32 a b, shl4_toNat a, shr5_toNat a,
    fun _ => BitVec.getLsbD_xor, BitVec.xor_assoc a b c, BitVec.xor_comm a b⟩

/-- Settles O2, by induction on the number of additions. -/
theorem productIsRepeatedAddition : Obligations.ProductIsRepeatedAddition := by
  refine ⟨mul32_toNat, fun a n => ?_⟩
  induction n with
  | zero => exact mul32_ofNat_zero a
  | succ n ih => rw [mul32_ofNat_succ, ih, Function.iterate_succ_apply']

/-! ### One round -/

/-- R120: an encryption round adds `DELTA` to the sum. -/
theorem encRound_sum (k : Key) (w : Work) : (encRound k w).sum = add32 w.sum Config.delta := rfl

/-- R120: the left half is updated from the old right half and the new sum. -/
theorem encRound_l (k : Key) (w : Work) :
    (encRound k w).l = add32 w.l (roundF w.r k.k0 k.k1 (encRound k w).sum) := rfl

/-- R120, R125: the right half is updated from the new left half and the new sum. -/
theorem encRound_r (k : Key) (w : Work) :
    (encRound k w).r = add32 w.r (roundF (encRound k w).l k.k2 k.k3 (encRound k w).sum) := rfl

/-- R121: a decryption round subtracts `DELTA` from the sum. -/
theorem decRound_sum (k : Key) (w : Work) : (decRound k w).sum = sub32 w.sum Config.delta := rfl

/-! ### The place of the reduction -/

/-- R124: the round function is the low 32 bits of its value over unbounded integers. -/
theorem roundF_eq_ofNat (v ka kb s : Word) : roundF v ka kb s = BitVec.ofNat 32
    (((v.toNat <<< 4) + ka.toNat) ^^^ (v.toNat + s.toNat) ^^^ ((v.toNat >>> 5) + kb.toNat)) := by
  have hword (x : Word) : BitVec.ofNat 32 x.toNat = x := by rw [BitVec.ofNat_toNat, BitVec.setWidth_eq]
  have hshl : BitVec.ofNat 32 (v.toNat <<< 4) = shl4 v := rfl
  have hshr : BitVec.ofNat 32 (v.toNat >>> 5) = shr5 v := by rw [← hword (shr5 v), shr5, BitVec.toNat_ushiftRight]
  simp only [BitVec.ofNat_xor, BitVec.ofNat_add, hword, hshl, hshr]
  rfl

/-- R124: an outer sum reduces an unbounded summand as the reduced one. -/
theorem add32_ofNat (a : Word) (n : Nat) : add32 a (BitVec.ofNat 32 n) = BitVec.ofNat 32 (a.toNat + n) := by
  rw [BitVec.ofNat_add, BitVec.ofNat_toNat, BitVec.setWidth_eq, add32]

/-- Settles O4: the two halves are outer sums with a round function, which is a reduced unbounded value. -/
theorem placeOfReductionIsImmaterial : Obligations.PlaceOfReductionIsImmaterial := by
  intro k w
  refine ⟨?_, ?_, ?_⟩
  · rw [encRound_sum, add32, BitVec.add_def]
  · rw [encRound_l, roundF_eq_ofNat, add32_ofNat]
  · rw [encRound_r, roundF_eq_ofNat, add32_ofNat]

/-! ### The halves of a block -/

/-- R118: the upper half is the quotient by `2^32`. -/
theorem leftHalf_toNat (b : Block) : (leftHalf b).toNat = b.toNat / 2 ^ 32 := by
  have hb := b.isLt
  rw [leftHalf, toNat_extractLsb']
  omega

/-- R118: the lower half is the remainder by `2^32`. -/
theorem rightHalf_toNat (b : Block) : (rightHalf b).toNat = b.toNat % 2 ^ 32 := by
  rw [rightHalf, toNat_extractLsb', pow_zero, Nat.div_one]

/-- R119: the unsigned value of a joined block. -/
theorem join_toNat (l r : Word) : (join l r).toNat = l.toNat * 2 ^ 32 + r.toNat := toNat_append_eq_mul_add l r

/-- R119: the upper half of a joined block. -/
@[simp] theorem leftHalf_join (l r : Word) : leftHalf (join l r) = l := BitVec.extractLsb'_append_eq_left

/-- R119: the lower half of a joined block. -/
@[simp] theorem rightHalf_join (l r : Word) : rightHalf (join l r) = r := BitVec.extractLsb'_append_eq_right

/-- Settles O3: the values and the inverse laws of split and join; with 0 rounds a block function splits and joins. -/
theorem splitAndJoinAreInverse : Obligations.SplitAndJoinAreInverse :=
  ⟨fun b => ⟨leftHalf_toNat b, rightHalf_toNat b, join_leftHalf_rightHalf b, fun _ =>
      ⟨join_leftHalf_rightHalf b, join_leftHalf_rightHalf b⟩⟩,
    fun l r => ⟨join_toNat l r, leftHalf_join l r, rightHalf_join l r⟩⟩

/-! ### The sum schedule -/

/-- R129: from the sum of `m` rounds, `j` encryption rounds come to the sum of `m + j`. -/
theorem encRounds_sum (k : Key) {w : Work} {m : Nat} (h : w.sum = mul32 Config.delta (BitVec.ofNat 32 m)) (j : Nat) :
    (encRounds k j w).sum = mul32 Config.delta (BitVec.ofNat 32 (m + j)) := by
  induction j with
  | zero => exact h
  | succ j ih => rw [encRounds_succ_last, encRound_sum, ih, ← Nat.add_assoc, mul32_ofNat_succ]

/-- R129: from the sum of `m + j` rounds, `j` decryption rounds come back to the sum of `m`. -/
theorem decRounds_sum (k : Key) {w : Work} {m j : Nat} (h : w.sum = mul32 Config.delta (BitVec.ofNat 32 (m + j))) :
    (decRounds k j w).sum = mul32 Config.delta (BitVec.ofNat 32 m) := by
  induction j generalizing w with
  | zero => exact h
  | succ j ih =>
    have hround : (decRound k w).sum = mul32 Config.delta (BitVec.ofNat 32 (m + j)) := by
      rw [decRound_sum, h, ← Nat.add_assoc, mul32_ofNat_succ, sub32_add32]
    exact ih hround

/-- R129: the sum of `n` encryption rounds of a block. -/
theorem encRounds_encStart_sum (k : Key) (b : Block) (n : Nat) :
    (encRounds k n (encStart b)).sum = mul32 Config.delta (BitVec.ofNat 32 n) := by
  have hstart : (encStart b).sum = mul32 Config.delta (BitVec.ofNat 32 0) := (mul32_ofNat_zero _).symm
  rw [encRounds_sum k hstart, Nat.zero_add]

/-- R129: `n` decryption rounds of a block end with the sum 0. -/
theorem decRounds_decStart_sum (k : Key) (b : Block) (n : Nat) : (decRounds k n (decStart b n)).sum = 0 := by
  have hstart : (decStart b n).sum = mul32 Config.delta (BitVec.ofNat 32 (0 + n)) := by rw [Nat.zero_add, decStart]
  rw [decRounds_sum k hstart, mul32_ofNat_zero]

/-- Settles O5: encryption counts the sum up from 0 and decryption counts it down from `n`. -/
theorem sumSchedule : Obligations.SumSchedule := by
  intro k b n j hj
  have hstart : (decStart b n).sum = mul32 Config.delta (BitVec.ofNat 32 (n - j + j)) := by
    rw [Nat.sub_add_cancel hj, decStart]
  exact ⟨encRounds_encStart_sum k b j, decRounds_sum k hstart, decRounds_decStart_sum k b n⟩

/-! ### The rounds are inverse -/

/-- R126: a decryption round undoes an encryption round. -/
@[simp] theorem decRound_encRound (k : Key) (w : Work) : decRound k (encRound k w) = w := by
  simp only [decRound, encRound, sub32_add32]

/-- R126: an encryption round undoes a decryption round. -/
@[simp] theorem encRound_decRound (k : Key) (w : Work) : encRound k (decRound k w) = w := by
  simp only [decRound, encRound, add32_sub32]

/-- R126: `n` decryption rounds undo `n` encryption rounds, the first of them the last encryption round. -/
@[simp] theorem decRounds_encRounds (k : Key) (n : Nat) (w : Work) : decRounds k n (encRounds k n w) = w := by
  induction n with
  | zero => rfl
  | succ n ih => rw [encRounds_succ_last, decRounds, decRound_encRound, ih]

/-- R126: `n` encryption rounds undo `n` decryption rounds. -/
@[simp] theorem encRounds_decRounds (k : Key) (n : Nat) (w : Work) : encRounds k n (decRounds k n w) = w := by
  induction n with
  | zero => rfl
  | succ n ih => rw [decRounds_succ_last, encRounds, encRound_decRound, ih]

/-- Encryption starts on a joined block with the locals it was joined from, when their sum is 0. -/
theorem encStart_join {w : Work} (h : w.sum = 0) : encStart (join w.l w.r) = w := by
  rw [encStart, leftHalf_join, rightHalf_join, ← h]

/-- Decryption starts on a joined block with the locals it was joined from, when their sum is that of its rounds. -/
theorem decStart_join {w : Work} {n : Nat} (h : w.sum = mul32 Config.delta (BitVec.ofNat 32 n)) :
    decStart (join w.l w.r) n = w := by
  rw [decStart, leftHalf_join, rightHalf_join, ← h]

/-- R126: decryption undoes encryption: it starts with the locals that the encryption ended with. -/
@[simp] theorem decryptBlock_encryptBlock (b : Block) (k : Key) (n : Nat) :
    decryptBlock (encryptBlock b k n) k n = b := by
  have hstart : decStart (encryptBlock b k n) n = encRounds k n (encStart b) :=
    decStart_join (encRounds_encStart_sum k b n)
  rw [decryptBlock, hstart, decRounds_encRounds]
  exact join_leftHalf_rightHalf b

/-- R126: encryption undoes decryption, whose sum ends at 0, where encryption starts. -/
@[simp] theorem encryptBlock_decryptBlock (b : Block) (k : Key) (n : Nat) :
    encryptBlock (decryptBlock b k n) k n = b := by
  have hstart : encStart (decryptBlock b k n) = decRounds k n (decStart b n) :=
    encStart_join (decRounds_decStart_sum k b n)
  rw [encryptBlock, hstart, encRounds_decRounds]
  exact join_leftHalf_rightHalf b

/-- Settles O6: the rounds are inverse, and by the sum schedule each direction starts where the other ended. -/
theorem blockFunctionsAreInverse : Obligations.BlockFunctionsAreInverse := fun b k rounds =>
  ⟨decryptBlock_encryptBlock b k rounds, encryptBlock_decryptBlock b k rounds⟩

/-! ### The block commands -/

/-- R185: the START of a block command raises no error. -/
theorem startError_block {i : Instr} (hi : isBlockCommand i = true) (s : State) : startError i s = none := by
  cases i with
  | encBlk | decBlk => rfl
  | ecbEnc | ecbDec | cbcEnc | cbcDec => cases hi

/-- R185: with `BUSY = 0` the START of a block command is accepted. -/
theorem exec_block_accepted {i : Instr} (hi : isBlockCommand i = true) {s : State} (hb : s.status.busy = false) :
    ∃ t, exec i s = .next t ∧ t.status = startedStatus s.status :=
  ⟨acceptStart i.opcode s, (exec_eq_command i s).trans (command_accepted hb (startError_block hi s)), rfl⟩

/-- R122, R123: with `BUSY = 1` a block command completes with its result in `DOUT`, and besides `DOUT`, the flags and the
hidden registers nothing changes. -/
theorem exec_block_result {i : Instr} (hi : isBlockCommand i = true) {s : State} (hb : s.status.busy = true) :
    ∃ t, exec i s = .next t ∧ join t.doutHi t.doutLo = doutOf i s ∧ t.status = completedStatus s.status ∧
      { t with doutHi := s.doutHi, doutLo := s.doutLo, status := s.status, eng := s.eng } = s := by
  obtain ⟨e, hr⟩ := runOf_block_result hi s
  have hx := exec_completes hb (startError_block hi s)
  rw [hr] at hx
  exact ⟨_, hx, join_leftHalf_rightHalf _, rfl, rfl⟩

/-- Settles O26: `ENC_BLK` is a block command whose result is the encryption of its operands. -/
theorem encBlkResult : Obligations.EncBlkResult := fun _ =>
  ⟨by decide, exec_block_accepted rfl, exec_block_result rfl⟩

/-- Settles O27: `DEC_BLK` is a block command whose result is the decryption of its operands. -/
theorem decBlkResult : Obligations.DecBlkResult := fun _ =>
  ⟨by decide, exec_block_accepted rfl, exec_block_result rfl⟩

end Sys2Proof.Machine
end

section
/-! SUPPORT. The ECB family: the laws of the byte and block conversions and of the two padding rules, the lengths of the mode
functions' results, what a buffer command does, and the proofs of the statements of spec/41_ecb.md from them. -/

namespace Sys2Proof.Machine

/-! ### Bytes and blocks -/

/-- The first block of a sequence that begins with the bytes of a block is this block. -/
@[simp] theorem blocksOf_bytes8_append (v : Block) (d : List Byte) : blocksOf (bytes8 v ++ d) = v :: blocksOf d :=
  congrArg (· :: blocksOf d) (List.cons.inj (blocksOf_bytes8 v)).1

/-- The bytes of no block. -/
@[simp] theorem bytesOf_nil : bytesOf [] = [] := rfl

/-- The bytes of a first block come first. -/
theorem bytesOf_cons (b : Block) (bs : List Block) : bytesOf (b :: bs) = bytes8 b ++ bytesOf bs := List.flatMap_cons

/-- The bytes of two block sequences, one after the other. -/
theorem bytesOf_append (as bs : List Block) : bytesOf (as ++ bs) = bytesOf as ++ bytesOf bs := List.flatMap_append

/-- The bytes of one block. -/
theorem bytesOf_singleton (b : Block) : bytesOf [b] = bytes8 b := List.flatMap_singleton bytes8 b

/-- The blocks of the bytes of a block sequence are this sequence. -/
@[simp] theorem blocksOf_bytesOf (bs : List Block) : blocksOf (bytesOf bs) = bs := by
  induction bs with
  | nil => rfl
  | cons b bs ih => rw [bytesOf_cons, blocksOf_bytes8_append, ih]

/-- The bytes of the blocks of a whole number of blocks are this sequence. -/
theorem bytesOf_blocksOf {d : List Byte} (h : 8 ∣ d.length) : bytesOf (blocksOf d) = d := by
  induction d using blocksOf.induct with
  | case1 b0 b1 b2 b3 b4 b5 b6 b7 rest ih =>
    have hrest : 8 ∣ rest.length := (Nat.dvd_add_left (Nat.dvd_refl 8)).mp h
    rw [blocksOf, bytesOf_cons, bytes8_be64, ih hrest]
    rfl
  | case2 d hshort =>
    have hblocks : blocksOf d = [] := by rw [blocksOf]; exact hshort
    have hlen := blocksOf_length d
    rw [hblocks, List.length_nil] at hlen
    have hd : d = [] := List.eq_nil_of_length_eq_zero (by omega)
    rw [hblocks, hd, bytesOf_nil]

/-! ### Padding -/

/-- R143: ECB padding ends with the next whole block. -/
theorem padEcb_length (d : List Byte) : (padEcb d).length = 8 * (d.length / 8 + 1) := by
  rw [padEcb, List.length_append, zeros, List.length_replicate]
  omega

/-- R160: CBC padding ends with the last begun block. -/
theorem padCbc_length (d : List Byte) : (padCbc d).length = 8 * ((d.length + 7) / 8) := by
  rw [padCbc, List.length_append, zeros, List.length_replicate]
  omega

/-- R143: ECB padding of a whole number of blocks is one zero block more. -/
theorem padEcb_of_dvd {d : List Byte} (h : 8 ∣ d.length) : padEcb d = d ++ bytes8 0 := by
  rw [padEcb, Nat.mod_eq_zero_of_dvd h]
  rfl

/-- R160: CBC padding of a whole number of blocks is nothing. -/
theorem padCbc_of_dvd {d : List Byte} (h : 8 ∣ d.length) : padCbc d = d := by
  rw [padCbc, Nat.mod_eq_zero_of_dvd h]
  exact List.append_nil d

/-- Settles O8: the zeros are those of the two definitions, and their number is bounded by the remainder. -/
theorem paddingRules : Obligations.PaddingRules := fun d =>
  ⟨⟨8 - d.length % 8, by omega, by omega, rfl, rfl⟩, padEcb_length d,
    ⟨(8 - d.length % 8) % 8, by omega, rfl, rfl⟩, padCbc_length d, padCbc_of_dvd⟩

/-! ### The lengths of the results -/

/-- R148: ECB gives as many bytes as the padded input. -/
theorem ecbTransform_length (d : List Byte) (k : Key) (dir : Direction) :
    (ecbTransform d k dir).length = 8 * (d.length / 8 + 1) := by
  rw [ecbTransform, bytesOf_length, List.length_map, blocksOf_length, padEcb_length, Nat.mul_div_cancel_left _ (by decide)]

/-- R167: CBC encryption gives the IV and as many bytes as the padded input. -/
theorem cbcEncrypt_length (d : List Byte) (k : Key) (iv : Block) :
    (cbcEncrypt d k iv).length = 8 + 8 * ((d.length + 7) / 8) := by
  have hiv : (bytes8 iv).length = 8 := rfl
  rw [cbcEncrypt, List.length_append, hiv, bytesOf_length, cbcEncryptBlocks_length, blocksOf_length, padCbc_length,
    Nat.mul_div_cancel_left _ (by decide)]

/-- R162, R170: CBC decryption gives eight bytes for each block after the first. -/
theorem cbcDecryptWhole_length (k : Key) (bs : List Block) : (cbcDecryptWhole k bs).length = 8 * (bs.length - 1) := by
  cases bs with
  | nil => rfl
  | cons iv cs => rw [cbcDecryptWhole_cons, bytesOf_length, cbcDecryptBlocks_length, List.length_cons, Nat.add_sub_cancel]

/-- R167: CBC decryption of a whole number of blocks gives one block less, and nothing for nothing. -/
theorem cbcDecrypt_length {d : List Byte} (h : 8 ∣ d.length) (k : Key) : (cbcDecrypt d k).length = d.length - 8 := by
  rw [cbcDecrypt_of_whole (Nat.mod_eq_zero_of_dvd h), cbcDecryptWhole_length, blocksOf_length]
  omega

/-- Settles O9: the bounds follow from the three lengths. -/
theorem modeOutputLengths : Obligations.ModeOutputLengths := by
  intro d k dir iv
  have hecb := ecbTransform_length d k dir
  have hcbc := cbcEncrypt_length d k iv
  exact ⟨hecb, by omega, by omega, hcbc, by omega, by omega, fun h => cbcDecrypt_length h k⟩

/-! ### The ECB transform on blocks -/

/-- R126: the block functions of both directions have an inverse, that of the other direction. -/
theorem blockFunction_injective (dir : Direction) (k : Key) : Function.Injective (blockFunction dir k) := by
  cases dir with
  | encrypt => exact Function.LeftInverse.injective (g := blockFunction .decrypt k) fun x => decryptBlock_encryptBlock x k _
  | decrypt => exact Function.LeftInverse.injective (g := blockFunction .encrypt k) fun x => encryptBlock_decryptBlock x k _

/-- R144: the output blocks are the block function of the padded input's blocks. -/
theorem blocksOf_ecbTransform (d : List Byte) (k : Key) (dir : Direction) :
    blocksOf (ecbTransform d k dir) = (blocksOf (padEcb d)).map (blockFunction dir k) := blocksOf_bytesOf _

/-- Settles O10: the transform maps the block function, which is injective. -/
theorem ecbBlocksAreIndependent : Obligations.EcbBlocksAreIndependent := fun k dir =>
  ⟨fun d => blocksOf_ecbTransform d k dir, fun _ _ h => blockFunction_injective dir k h⟩

/-- R143, R144: the transform of whole blocks is that of each block, and then that of the zero block which the padding adds. -/
theorem ecbTransform_bytesOf (bs : List Block) (k : Key) (dir : Direction) :
    ecbTransform (bytesOf bs) k dir = bytesOf (bs.map (blockFunction dir k)) ++ bytes8 (blockFunction dir k 0) := by
  have hpad : padEcb (bytesOf bs) = bytesOf (bs ++ [0]) := by
    rw [padEcb_of_dvd ⟨bs.length, bytesOf_length bs⟩, bytesOf_append, bytesOf_singleton]
  rw [ecbTransform, hpad, blocksOf_bytesOf, List.map_append, bytesOf_append, List.map_singleton, bytesOf_singleton]

/-- R126: the block function of decryption undoes that of encryption on each block. -/
theorem map_decrypt_map_encrypt (k : Key) (bs : List Block) :
    (bs.map (blockFunction .encrypt k)).map (blockFunction .decrypt k) = bs := by
  rw [List.map_map]
  exact List.map_id'' (fun x => decryptBlock_encryptBlock x k _) bs

/-- Settles O11: the encryption is whole blocks, so the second padding adds a zero block, and the others decrypt to the blocks of
the padded input. -/
theorem ecbRoundTrip : Obligations.EcbRoundTrip := by
  intro d k
  have hwhole : 8 ∣ (padEcb d).length := ⟨_, padEcb_length d⟩
  have henc : ecbTransform d k .encrypt = bytesOf ((blocksOf (padEcb d)).map (blockFunction .encrypt k)) := rfl
  rw [henc, ecbTransform_bytesOf, map_decrypt_map_encrypt, bytesOf_blocksOf hwhole]
  rfl

/-- Settles O15: nothing is no block, eight bytes are one, and the CBC lengths of both leave no plaintext byte. -/
theorem emptyAndShortInputs : Obligations.EmptyAndShortInputs := by
  intro k dir iv
  refine ⟨ecbTransform_bytesOf [] k dir, fun d hd => ?_, List.append_nil _, rfl, fun d hd => ?_⟩
  · rw [blocksOf_length, ecbTransform_length, hd]
  · exact List.eq_nil_of_length_eq_zero (by rw [cbcDecrypt_length ⟨1, hd⟩ k, hd])

/-! ### The buffer commands -/

/-- R94: the byte operand is the bytes of `IBUF` below `LEN`. -/
theorem bytesOperand_eq_map (s : State) : bytesOperand s = (List.range s.len.toNat).map (readIbuf s) := by
  simp only [bytesOperand, readIbufBytes_eq, Nat.zero_add]

/-- R94: the byte operand has `LEN` bytes. -/
@[simp] theorem bytesOperand_length (s : State) : (bytesOperand s).length = s.len.toNat := readIbufBytes_length s 0 _

/-- R203: a buffer command whose `LEN` is beyond `MAXLEN` raises `LEN_RANGE`. -/
theorem startError_of_len_gt {i : Instr} (hi : isBlockCommand i = false) {s : State}
    (hlen : s.params.maxlen.val < s.len.toNat) : startError i s = some .lenRange := by
  cases i with
  | encBlk | decBlk => cases hi
  | ecbEnc | ecbDec | cbcEnc | cbcDec => exact if_pos hlen

/-- R185: with `LEN` in range, and a whole number of blocks for `CBC_DEC`, a START raises no error. -/
theorem startError_of_len_le {i : Instr} {s : State} (hlen : s.len.toNat ≤ s.params.maxlen.val)
    (h8 : i = .cbcDec → s.len.toNat % 8 = 0) : startError i s = none :=
  startError_of_len (d := bytesOperand s) (s := s) rfl (bytesOperand_length s).symm
    (bytesOperand_length s ▸ hlen) (bytesOperand_length s ▸ h8)

/-- R206: a rejected START leaves `ERR` and the code in `STATUS` and changes nothing else. -/
theorem exec_rejected {i : Instr} {s : State} {e : ErrorCode} (hb : s.status.busy = false) (he : startError i s = some e) :
    exec i s = .next { s with status := rejectedStatus s.status (errorNumber e) } := by
  have hstatus : statusRaised e s.status = rejectedStatus s.status (errorNumber e) := by
    rw [statusRaised, statusCleared, hb, rejectedStatus]
  rw [exec_eq_command, command_rejected hb he, raiseError, hstatus, setStatus]

/-- R185: an accepted START leaves only `BUSY` in `STATUS`, beside `HZD`. -/
theorem exec_accepted {i : Instr} {s : State} (hb : s.status.busy = false) (he : startError i s = none) :
    ∃ t, exec i s = .next t ∧ t.status = startedStatus s.status :=
  ⟨acceptStart i.opcode s, (exec_eq_command i s).trans (command_accepted hb he), rfl⟩

/-- R186: with `BUSY = 1` a buffer command completes with its output in `OBUF` and `OLEN`, and besides these, the flags, the
hidden registers and the draws nothing changes. -/
theorem exec_buffer_result {i : Instr} (hi : isBlockCommand i = false) {s : State} (hb : s.status.busy = true)
    (he : startError i s = none) :
    ∃ t, exec i s = .next t ∧ t.olen.toNat = (outputOf i s).length ∧
      (∀ (a : Nat) (h : a < (outputOf i s).length), readObuf t a = (outputOf i s)[a]) ∧
      t.status = completedStatus s.status ∧
      { t with obuf := s.obuf, olen := s.olen, status := s.status, eng := s.eng, obufDraw := s.obufDraw, draws := s.draws } = s := by
  have hx := exec_completes hb he
  obtain ⟨holen, hread⟩ := exec_buffer_completes hi hb hx
  obtain ⟨e, hr⟩ := runOf_buffer hi s
  rw [hr] at hx holen hread
  refine ⟨_, hx, holen, fun a h => ?_, rfl, rfl⟩
  rw [hread, List.getElem?_eq_getElem h, Option.getD_some]

/-! ### The ECB commands -/

/-- R146, R147: the output of the two ECB commands. -/
theorem outputOf_ecb {i : Instr} {dir : Direction} (h : (i = .ecbEnc ∧ dir = .encrypt) ∨ (i = .ecbDec ∧ dir = .decrypt))
    (s : State) : outputOf i s = ecbTransform (bytesOperand s) (keyOperand s) dir := by
  rcases h with ⟨rfl, rfl⟩ | ⟨rfl, rfl⟩ <;> rfl

/-- Settles O28: both are buffer commands without a check of their own, and their output is the transform of the operand. -/
theorem ecbResults : Obligations.EcbResults := by
  refine ⟨by decide, by decide, fun s i dir h => ?_⟩
  have ⟨hi, hne⟩ : isBlockCommand i = false ∧ i ≠ .cbcDec := by
    rcases h with ⟨rfl, -⟩ | ⟨rfl, -⟩ <;> decide
  have hnone (hlen : s.len.toNat ≤ s.params.maxlen.val) : startError i s = none :=
    startError_of_len_le hlen fun hcbc => absurd hcbc hne
  refine ⟨fun hb hlen => exec_rejected hb (startError_of_len_gt hi hlen), fun hb hlen => exec_accepted hb (hnone hlen),
    fun hb hlen => ?_⟩
  obtain ⟨t, hx, holen, hread, hstatus, hframe⟩ := exec_buffer_result hi hb (hnone hlen)
  have hout := outputOf_ecb h s
  refine ⟨t, outputOf i s, hx, by rw [hout, bytesOperand_eq_map]; rfl, holen, ?_, hread, hstatus, hframe⟩
  rw [holen, hout, ecbTransform_length, bytesOperand_length]

end Sys2Proof.Machine
end

section
/-! SUPPORT. The CBC family: the laws of the 64-bit exclusive or, the chains of CBC encryption and decryption block by block, and
the proofs of the statements of spec/42_cbc.md from them. -/

namespace Sys2Proof.Machine

/-! ### The exclusive or of blocks -/

/-- R116: a second exclusive or with the same block undoes the first. -/
@[simp] theorem xor64_xor64_self (x y : Block) : xor64 (xor64 x y) y = x := by
  rw [xor64, xor64, BitVec.xor_assoc, BitVec.xor_self, BitVec.xor_zero]

/-- R116: the exclusive or with one block is injective. -/
theorem xor64_left_injective (y : Block) : Function.Injective fun x => xor64 x y :=
  Function.LeftInverse.injective (g := fun x => xor64 x y) fun x => xor64_xor64_self x y

/-- R116: a common left operand cancels in an exclusive or. -/
@[simp] theorem xor64_xor64_xor64_left (x a b : Block) : xor64 (xor64 x a) (xor64 x b) = xor64 a b := by
  rw [xor64, xor64, xor64, xor64, BitVec.xor_comm x a, BitVec.xor_assoc, ← BitVec.xor_assoc x x b, BitVec.xor_self,
    BitVec.zero_xor]

/-- R116: the exclusive or with the zero block is the block. -/
@[simp] theorem xor64_zero (x : Block) : xor64 x 0 = x := BitVec.xor_zero

/-! ### The chains -/

/-- R161: one block of the encryption chain. -/
theorem cbcEncryptBlocks_cons (k : Key) (prev p : Block) (ps : List Block) :
    cbcEncryptBlocks k prev (p :: ps) =
      encryptBlock (xor64 p prev) k 32 :: cbcEncryptBlocks k (encryptBlock (xor64 p prev) k 32) ps := rfl

/-- R162: one block of the decryption chain. -/
theorem cbcDecryptBlocks_cons (k : Key) (prev c : Block) (cs : List Block) :
    cbcDecryptBlocks k prev (c :: cs) = xor64 (decryptBlock c k 32) prev :: cbcDecryptBlocks k c cs := rfl

/-- R165: the decryption chain undoes the encryption chain from the same chaining value. -/
@[simp] theorem cbcDecryptBlocks_cbcEncryptBlocks (k : Key) (prev : Block) (ps : List Block) :
    cbcDecryptBlocks k prev (cbcEncryptBlocks k prev ps) = ps := by
  induction ps generalizing prev with
  | nil => rfl
  | cons p ps ih =>
    rw [cbcEncryptBlocks_cons, cbcDecryptBlocks_cons, ih, decryptBlock_encryptBlock, xor64_xor64_self]

/-- R161, R166: each ciphertext block is the encryption of the plaintext block XORed with the block before it in the output. -/
theorem cbcEncryptBlocks_getElem? (k : Key) (iv : Block) {ps : List Block} {i : Nat} {p : Block} (h : ps[i]? = some p) :
    ∃ prev c, (iv :: cbcEncryptBlocks k iv ps)[i]? = some prev ∧ (cbcEncryptBlocks k iv ps)[i]? = some c ∧
      c = encryptBlock (xor64 p prev) k 32 := by
  induction ps generalizing iv i with
  | nil => cases h
  | cons q ps ih =>
    cases i with
    | zero =>
      cases h
      exact ⟨iv, _, rfl, rfl, rfl⟩
    | succ i => exact ih (encryptBlock (xor64 q iv) k 32) h

/-- R162, R166: each plaintext block is the decryption of the ciphertext block XORed with the block before it in the input. -/
theorem cbcDecryptBlocks_getElem? (k : Key) (iv : Block) {cs : List Block} {i : Nat} {c : Block} (h : cs[i]? = some c) :
    ∃ prev p, (iv :: cs)[i]? = some prev ∧ (cbcDecryptBlocks k iv cs)[i]? = some p ∧
      p = xor64 (decryptBlock c k 32) prev := by
  induction cs generalizing iv i with
  | nil => cases h
  | cons b cs ih =>
    cases i with
    | zero =>
      cases h
      exact ⟨iv, _, rfl, rfl, rfl⟩
    | succ i => exact ih b h

/-! ### The mode functions -/

/-- R161: CBC encryption gives the bytes of the IV and of the encryption chain. -/
theorem cbcEncrypt_eq_bytesOf (d : List Byte) (k : Key) (iv : Block) :
    cbcEncrypt d k iv = bytesOf (iv :: cbcEncryptBlocks k iv (blocksOf (padCbc d))) := (bytesOf_cons _ _).symm

/-- R161: the blocks of a CBC encryption are the IV and the encryption chain. -/
theorem blocksOf_cbcEncrypt (d : List Byte) (k : Key) (iv : Block) :
    blocksOf (cbcEncrypt d k iv) = iv :: cbcEncryptBlocks k iv (blocksOf (padCbc d)) := by
  rw [cbcEncrypt_eq_bytesOf, blocksOf_bytesOf]

/-- R162: CBC decryption of a whole number of blocks is the decryption chain from its first block. -/
theorem cbcDecrypt_of_blocks {d : List Byte} {iv : Block} {cs : List Block} (h8 : 8 ∣ d.length)
    (h : blocksOf d = iv :: cs) (k : Key) : cbcDecrypt d k = bytesOf (cbcDecryptBlocks k iv cs) := by
  rw [cbcDecrypt_of_whole (Nat.mod_eq_zero_of_dvd h8), h, cbcDecryptWhole_cons]

/-- Settles O12: the encryption is whole blocks, the IV first, and the decryption chain undoes the encryption chain. -/
theorem cbcRoundTrip : Obligations.CbcRoundTrip := by
  intro d k iv
  have hwhole : 8 ∣ (cbcEncrypt d k iv).length := by
    rw [cbcEncrypt_length]
    omega
  rw [cbcDecrypt_of_blocks hwhole (blocksOf_cbcEncrypt d k iv), cbcDecryptBlocks_cbcEncryptBlocks,
    bytesOf_blocksOf ⟨_, padCbc_length d⟩]

/-- Settles O13: the block lists are those of the two chains. -/
theorem chainingValueIsPreviousCiphertext : Obligations.ChainingValueIsPreviousCiphertext := by
  intro k iv d
  refine ⟨⟨cbcEncryptBlocks k iv (blocksOf (padCbc d)), cbcEncrypt_eq_bytesOf d k iv, cbcEncryptBlocks_length k iv _,
    fun i p h => cbcEncryptBlocks_getElem? k iv h⟩, fun cs h8 hd => ?_⟩
  exact ⟨cbcDecryptBlocks k iv cs, cbcDecrypt_of_blocks h8 hd k, cbcDecryptBlocks_length k iv cs,
    fun i c h => cbcDecryptBlocks_getElem? k iv h⟩

/-! ### A changed block -/

/-- R162, R166: the decryption chain of two block sequences is that of the first, and then that of the second from the last
block before it. -/
theorem cbcDecryptBlocks_append (k : Key) (prev : Block) (as bs : List Block) :
    cbcDecryptBlocks k prev (as ++ bs) = cbcDecryptBlocks k prev as ++ cbcDecryptBlocks k (as.getLastD prev) bs := by
  induction as generalizing prev with
  | nil => rfl
  | cons a as ih =>
    rw [List.cons_append, cbcDecryptBlocks_cons, ih, cbcDecryptBlocks_cons, List.getLastD_cons, List.cons_append]

/-- R169: what stands before a place of the ciphertext decrypts to the plaintext before that place. -/
theorem cbcDecryptBlocks_append_take (k : Key) (prev : Block) (as bs : List Block) :
    (cbcDecryptBlocks k prev (as ++ bs)).take as.length = cbcDecryptBlocks k prev as := by
  rw [cbcDecryptBlocks_append, List.take_left' (cbcDecryptBlocks_length k prev as)]

/-- R169: what stands from a place of the ciphertext on decrypts, from the block before it, to the plaintext from that
place on. -/
theorem cbcDecryptBlocks_append_drop (k : Key) (prev : Block) (as bs : List Block) :
    (cbcDecryptBlocks k prev (as ++ bs)).drop as.length = cbcDecryptBlocks k (as.getLastD prev) bs := by
  rw [cbcDecryptBlocks_append, List.drop_left' (cbcDecryptBlocks_length k prev as)]

/-- R169: the chaining value a decryption starts from does not reach the second plaintext block. -/
theorem cbcDecryptBlocks_drop_one (k : Key) (c c' : Block) (post : List Block) :
    (cbcDecryptBlocks k c post).drop 1 = (cbcDecryptBlocks k c' post).drop 1 := by
  cases post <;> rfl

/-- R169: the first plaintext blocks from two chaining values differ by exactly their difference. -/
theorem cbcDecryptBlocks_head_xor64 (k : Key) (c c' : Block) (post : List Block) {p p' : Block}
    (h : (cbcDecryptBlocks k c post)[0]? = some p) (h' : (cbcDecryptBlocks k c' post)[0]? = some p') :
    xor64 p p' = xor64 c c' := by
  cases post with
  | nil => cases h
  | cons b post =>
    cases h
    cases h'
    exact xor64_xor64_xor64_left _ c c'

/-- Settles O14: the changed block stands in the plaintext block at its place and is the chaining value of the rest. -/
theorem cbcDecryptDependsOnTwoBlocks : Obligations.CbcDecryptDependsOnTwoBlocks := by
  intro k pre post c c' iv
  have hat (b : Block) (j : Nat) : (cbcDecryptBlocks k iv (pre ++ b :: post))[pre.length + j]? =
      (cbcDecryptBlocks k (pre.getLastD iv) (b :: post))[j]? := by
    rw [← List.getElem?_drop, cbcDecryptBlocks_append_drop]
  refine ⟨fun hne => ⟨_, _, hat c 0, hat c' 0, fun heq => hne ?_⟩, ?_, ?_, fun p p' h h' => ?_,
    cbcDecryptBlocks_drop_one k c c' post, fun p p' => cbcDecryptBlocks_head_xor64 k c c' post⟩
  · exact blockFunction_injective .decrypt k (xor64_left_injective _ heq)
  · rw [cbcDecryptBlocks_append_take, cbcDecryptBlocks_append_take]
  · rw [← List.drop_drop, ← List.drop_drop, cbcDecryptBlocks_append_drop, cbcDecryptBlocks_append_drop]
    exact cbcDecryptBlocks_drop_one k c c' post
  · exact cbcDecryptBlocks_head_xor64 k c c' post ((hat c 1).symm.trans h) ((hat c' 1).symm.trans h')

/-! ### The zero IV -/

/-- R143, R160: the blocks of ECB padding begin with those of CBC padding. -/
theorem blocksOf_padEcb_eq_append (d : List Byte) : ∃ more, blocksOf (padEcb d) = blocksOf (padCbc d) ++ more := by
  by_cases h8 : 8 ∣ d.length
  · have hecb : padEcb d = bytesOf (blocksOf d ++ [0]) := by
      rw [padEcb_of_dvd h8, bytesOf_append, bytesOf_blocksOf h8, bytesOf_singleton]
    exact ⟨[0], by rw [padCbc_of_dvd h8, hecb, blocksOf_bytesOf]⟩
  · have hsame : (8 - d.length % 8) % 8 = 8 - d.length % 8 := by omega
    exact ⟨[], by rw [padCbc, hsame, padEcb, List.append_nil]⟩

/-- R160: CBC padding of a byte or more has a first block. -/
theorem blocksOf_padCbc_eq_cons {d : List Byte} (hd : d ≠ []) : ∃ p ps, blocksOf (padCbc d) = p :: ps := by
  have hpos := List.length_pos_of_ne_nil hd
  refine List.exists_cons_of_length_pos ?_
  rw [blocksOf_length, padCbc_length]
  omega

/-- Settles O16: both paddings have the same first block, and the exclusive or with the zero IV leaves it. -/
theorem zeroIvGivesTheEcbBlock : Obligations.ZeroIvGivesTheEcbBlock := by
  intro d k hd
  obtain ⟨p, ps, hcbc⟩ := blocksOf_padCbc_eq_cons hd
  obtain ⟨more, hecb⟩ := blocksOf_padEcb_eq_append d
  rw [hcbc, List.cons_append] at hecb
  refine ⟨p, ?_, ?_, ?_⟩
  · rw [hecb]
    rfl
  · rw [blocksOf_ecbTransform, hecb]
    rfl
  · rw [blocksOf_cbcEncrypt, hcbc, cbcEncryptBlocks_cons, xor64_zero]
    rfl

/-! ### The CBC commands -/

/-- R204: `CBC_DEC` with `LEN` in range but ragged raises `LEN_RAGGED`. -/
theorem startError_cbcDec_of_ragged {s : State} (hlen : s.len.toNat ≤ s.params.maxlen.val) (h8 : s.len.toNat % 8 ≠ 0) :
    startError .cbcDec s = some .lenRagged :=
  (if_neg (Nat.not_lt.mpr hlen)).trans (if_pos h8)

/-- Settles O29: `CBC_ENC` is a buffer command without a check of its own, whose output is the encryption of its operands. -/
theorem cbcEncResult : Obligations.CbcEncResult := by
  intro s
  have hnone (hlen : s.len.toNat ≤ s.params.maxlen.val) : startError .cbcEnc s = none := startError_of_len_le hlen nofun
  refine ⟨by decide, fun hb hlen => exec_rejected hb (startError_of_len_gt rfl hlen),
    fun hb hlen => exec_accepted hb (hnone hlen), fun hb hlen => ?_⟩
  obtain ⟨t, hx, holen, hread, hstatus, hframe⟩ := exec_buffer_result rfl hb (hnone hlen)
  refine ⟨t, outputOf .cbcEnc s, hx, by rw [← bytesOperand_eq_map]; rfl, holen, ?_, hread, hstatus, hframe⟩
  rw [holen, outputOf, cbcEncrypt_length, bytesOperand_length]

/-- Settles O30: `CBC_DEC` is a buffer command that also checks for a ragged `LEN`, whose output is the decryption of its
operands. -/
theorem cbcDecResult : Obligations.CbcDecResult := by
  intro s
  have hnone (hlen : s.len.toNat ≤ s.params.maxlen.val) (h8 : s.len.toNat % 8 = 0) : startError .cbcDec s = none :=
    startError_of_len_le hlen fun _ => h8
  refine ⟨by decide, fun hb hlen => exec_rejected hb (startError_of_len_gt rfl hlen),
    fun hb hlen h8 => exec_rejected hb (startError_cbcDec_of_ragged hlen h8),
    fun hb hlen h8 => exec_accepted hb (hnone hlen h8), fun hb hlen h8 => ?_⟩
  obtain ⟨t, hx, holen, hread, hstatus, hframe⟩ := exec_buffer_result rfl hb (hnone hlen h8)
  refine ⟨t, outputOf .cbcDec s, hx, by rw [← bytesOperand_eq_map]; rfl, holen, ?_, hread, hstatus, hframe⟩
  have hwhole : 8 ∣ (bytesOperand s).length := bytesOperand_length s ▸ Nat.dvd_of_mod_eq_zero h8
  rw [holen, outputOf, cbcDecrypt_length hwhole, bytesOperand_length]

end Sys2Proof.Machine
end

section
/-! SUPPORT. The micro-sequence: the loops of R187 as a fold of the pure round and block functions, and what each command's loop
over `BLK` leaves after every block, with the proof that the completion step is the whole of it. -/

namespace Sys2Proof.Machine

/-! ### The rounds of one block -/

/-- The direction in which a command runs the block function. -/
def directionOf : Instr → Direction
  | .encBlk => .encrypt
  | .decBlk => .decrypt
  | .ecbEnc => .encrypt
  | .ecbDec => .decrypt
  | .cbcEnc => .encrypt
  | .cbcDec => .decrypt

/-- The locals of a block function before its first round (R120, R121). -/
def startIn (n : Word) (x : Block) : Direction → Work
  | .encrypt => encStart x
  | .decrypt => decStart x n.toNat

/-- The counted loop of a direction. -/
def roundsIn (k : Key) (n : Nat) (w : Work) : Direction → Work
  | .encrypt => encRounds k n w
  | .decrypt => decRounds k n w

/-- The block function of a direction for a round count held in a register. -/
def blockIn (k : Key) (n : Word) (x : Block) : Direction → Block
  | .encrypt => encryptBlock x k n.toNat
  | .decrypt => decryptBlock x k n.toNat

/-- `SUM` after the rounds of a block (R129). -/
def sumIn (n : Word) : Direction → Word
  | .encrypt => mul32 Config.delta n
  | .decrypt => 0

/-- The hidden registers between two rounds. -/
def engineAtRound (w : Work) (rnd : Word) (e : EngineRegs) : EngineRegs :=
  { e with rnd := rnd, l := w.l, r := w.r, sum := w.sum }

/-- R187: the load of a block puts the block function's locals into the hidden registers. -/
theorem seqLoad_eq (i : Instr) (x : Block) (s : State) :
    seqLoad i x s = setEngine (engineAtRound (startIn (seqRoundCount i s) x (directionOf i)) 0 s.eng) s := by
  cases i with
  | decBlk =>
    have hn : BitVec.ofNat 32 s.rounds.toNat = s.rounds := by rw [BitVec.ofNat_toNat, BitVec.setWidth_eq]
    simp only [startIn, seqRoundCount, directionOf, decStart, hn]
    rfl
  | encBlk | ecbEnc | ecbDec | cbcEnc | cbcDec => rfl

/-- R187: one round of the micro-sequence is one round of the direction. -/
theorem seqRound_eq (i : Instr) (w : Work) (rnd : Word) (e : EngineRegs) (s : State) :
    seqRound i (setEngine (engineAtRound w rnd e) s) =
      setEngine (engineAtRound (roundsIn (keyOperand s) 1 w (directionOf i)) (rnd + 1) e) s := by
  cases i <;> rfl

/-- The first of `n + 1` rounds of a direction. -/
theorem roundsIn_succ (k : Key) (n : Nat) (w : Work) (dir : Direction) :
    roundsIn k (n + 1) w dir = roundsIn k n (roundsIn k 1 w dir) dir := by
  cases dir <;> rfl

/-- R187: `n` rounds of the micro-sequence are the counted loop of the direction. -/
theorem seqRounds_eq (i : Instr) (n : Nat) (w : Work) (rnd : Word) (e : EngineRegs) (s : State) :
    seqRounds i n (setEngine (engineAtRound w rnd e) s) =
      setEngine (engineAtRound (roundsIn (keyOperand s) n w (directionOf i)) (rnd + BitVec.ofNat 32 n) e) s := by
  induction n generalizing w rnd with
  | zero =>
    have hrnd : rnd + BitVec.ofNat 32 0 = rnd := BitVec.add_zero rnd
    rw [hrnd, seqRounds]
    cases directionOf i <;> rfl
  | succ n ih =>
    have hrnd : rnd + 1 + BitVec.ofNat 32 n = rnd + BitVec.ofNat 32 (n + 1) := by
      rw [BitVec.add_assoc, Nat.add_comm n 1, BitVec.ofNat_add]
      rfl
    rw [seqRounds, seqRound_eq, ih, hrnd, ← roundsIn_succ]

/-- R129: the rounds of a block leave its result in `L` and `R` and the end of the sum schedule in `SUM`. -/
theorem engineAtRound_roundsIn (k : Key) (n : Word) (x : Block) (e : EngineRegs) (dir : Direction) :
    engineAtRound (roundsIn k n.toNat (startIn n x dir) dir) n e = engineAfterBlock (sumIn n dir) n (blockIn k n x dir) e := by
  have hn : BitVec.ofNat 32 n.toNat = n := by rw [BitVec.ofNat_toNat, BitVec.setWidth_eq]
  cases dir with
  | encrypt =>
    have hsum := encRounds_encStart_sum k x n.toNat
    rw [hn] at hsum
    simp only [engineAtRound, engineAfterBlock, roundsIn, startIn, sumIn, blockIn, encryptBlock, leftHalf_join,
      rightHalf_join, hsum]
  | decrypt =>
    simp only [engineAtRound, engineAfterBlock, roundsIn, startIn, sumIn, blockIn, decryptBlock, leftHalf_join,
      rightHalf_join, decRounds_decStart_sum]

/-- R187: loading a block and running its rounds leaves the hidden registers as the block function's end does. -/
theorem seqRounds_seqLoad (i : Instr) (x : Block) (s : State) :
    seqRounds i (seqRoundCount i s).toNat (seqLoad i x s) =
      setEngine (engineAfterBlock (sumIn (seqRoundCount i s) (directionOf i)) (seqRoundCount i s)
        (blockIn (keyOperand s) (seqRoundCount i s) x (directionOf i)) s.eng) s := by
  have hrnd : 0 + BitVec.ofNat 32 (seqRoundCount i s).toNat = seqRoundCount i s := by
    rw [BitVec.ofNat_toNat, BitVec.setWidth_eq]
    exact BitVec.zero_add _
  rw [seqLoad_eq, seqRounds_eq, hrnd, engineAtRound_roundsIn]

/-- R187: one iteration of the loop over `BLK` stores what the block function gives. -/
theorem seqBlock_eq (i : Instr) (s : State) :
    seqBlock i s = seqStore i (seqInput i s)
      (setEngine (engineAfterBlock (sumIn (seqRoundCount i s) (directionOf i)) (seqRoundCount i s)
        (blockIn (keyOperand s) (seqRoundCount i s)
          (if i = .cbcEnc then xor64 (seqInput i s) s.eng.prev else seqInput i s) (directionOf i)) s.eng) s) :=
  congrArg (seqStore i (seqInput i s)) (seqRounds_seqLoad i _ s)

/-- R187: what every block leaves, if it holds before the first and each block takes it on. -/
theorem seqBlocks_eq {i : Instr} {n : Nat} {s : State} (after : Nat → State) (h0 : s = after 0)
    (hstep : ∀ j, j < n → seqBlock i (after j) = after (j + 1)) : seqBlocks i n s = after n := by
  induction n generalizing s after with
  | zero => exact h0
  | succ n ih =>
    rw [seqBlocks, h0, hstep 0 (Nat.succ_pos n)]
    exact ih (fun j => after (j + 1)) rfl fun j hj => hstep (j + 1) (Nat.succ_lt_succ hj)

/-! ### The block commands -/

/-- R122, R123, R187: the one block of a block command. -/
theorem seqCommand_block {i : Instr} (hi : isBlockCommand i = true) (s : State) : seqCommand i s = complete (runOf i s) := by
  cases i with
  | encBlk | decBlk =>
    simp only [seqCommand, seqBlockCount, seqBlocks, seqBlock_eq, seqStore, setEngine_eng, engineAfterBlock_l,
      engineAfterBlock_r, join_leftHalf_rightHalf]
    rfl
  | ecbEnc | ecbDec | cbcEnc | cbcDec => cases hi

/-! ### The padded input -/

/-- The first `n` blocks of the padded input, as the engine forms them. -/
def seqInputs (s : State) (n : Nat) : List Block := (List.range n).map fun b => seqInputAt s (8 * b)

/-- One block more. -/
theorem seqInputs_succ (s : State) (n : Nat) : seqInputs s (n + 1) = seqInputs s n ++ [seqInputAt s (8 * n)] := by
  rw [seqInputs, List.range_succ, List.map_append]
  rfl

/-- There are `n` of them. -/
@[simp] theorem seqInputs_length (s : State) (n : Nat) : (seqInputs s n).length = n := by simp [seqInputs]

/-- R60, R141: the engine's input blocks are made of its input bytes. -/
theorem map_seqInputByte_eq_bytesOf (s : State) (n : Nat) :
    (List.range (8 * n)).map (seqInputByte s) = bytesOf (seqInputs s n) := by
  induction n with
  | zero => rfl
  | succ n ih =>
    rw [Nat.mul_succ, List.range_add, List.map_append, ih, seqInputs_succ, bytesOf_append, bytesOf_singleton, seqInputAt,
      bytes8_be64]
    rfl

/-- R141: the engine's input bytes are the operand and then zeros. -/
theorem bytesOperand_append_zeros (s : State) (m : Nat) :
    bytesOperand s ++ zeros m = (List.range (s.len.toNat + m)).map (seqInputByte s) := by
  rw [List.range_add, List.map_append, bytesOperand_eq_map]
  congr 1
  · exact List.map_congr_left fun k hk => (if_pos (List.mem_range.mp hk)).symm
  · refine (List.eq_replicate_iff.mpr ⟨by simp, fun b hb => ?_⟩).symm
    simp only [List.map_map, List.mem_map, Function.comp_apply] at hb
    obtain ⟨k, -, rfl⟩ := hb
    exact if_neg (Nat.not_lt.mpr (Nat.le_add_right _ _))

/-- R141: the engine's input blocks are those of the operand, padded to whole blocks. -/
theorem blocksOf_bytesOperand_append_zeros {s : State} {m n : Nat} (h : s.len.toNat + m = 8 * n) :
    blocksOf (bytesOperand s ++ zeros m) = seqInputs s n := by
  rw [bytesOperand_append_zeros, h, map_seqInputByte_eq_bytesOf, blocksOf_bytesOf]

/-! ### What the loop of a buffer command writes -/

/-- A state in which a running buffer command has emitted `out` so far and its hidden registers hold `e`. -/
def seqOutput (e : EngineRegs) (out : List Byte) (s : State) : State :=
  setEngine e { seqOpenOutput s with obuf := Memory.writeBytes [] 0 out }

/-- The hidden registers of such a state. -/
@[simp] theorem seqOutput_eng (e : EngineRegs) (out : List Byte) (s : State) : (seqOutput e out s).eng = e := rfl

/-- R142: a block emitted at the end of the output is appended to it. -/
theorem seqEmit_seqOutput {index : Nat} {out : List Byte} (h : index = out.length) (e : EngineRegs) (y : Block) (s : State) :
    seqEmit index y (seqOutput e out s) = seqOutput e (out ++ bytes8 y) s := by
  rw [seqOutput, seqOutput, Memory.writeBytes_append, Nat.zero_add, ← h]
  rfl

/-- `OLEN` written at the end makes it the command's output. -/
theorem complete_seqOutput {n : Nat} {out : List Byte} (h : out.length = n) (e : EngineRegs) (s : State) :
    complete { seqOutput e out s with olen := BitVec.ofNat 32 n } = complete (setEngine e (storeOutput out s)) := by
  rw [← h]
  rfl

/-- `BLK` counts the blocks. -/
@[simp] theorem engineAfterBlocks_blk (dir : Direction) (ys : List Block) (e : EngineRegs) :
    (engineAfterBlocks dir ys e).blk = BitVec.ofNat 32 ys.length := by
  rcases List.eq_nil_or_concat ys with rfl | ⟨zs, z, rfl⟩ <;> simp [engineAfterBlocks]

/-- The blocks leave `PREV`. -/
@[simp] theorem engineAfterBlocks_prev (dir : Direction) (ys : List Block) (e : EngineRegs) :
    (engineAfterBlocks dir ys e).prev = e.prev := by
  rcases List.eq_nil_or_concat ys with rfl | ⟨zs, z, rfl⟩ <;> simp [engineAfterBlocks]

/-- R31, R187: a block more on the hidden registers that blocks have left. -/
theorem engineAfterBlocks_append (dir : Direction) (ys : List Block) (y : Block) (e : EngineRegs) :
    { engineAfterBlock (sumAfterBlock dir) 32 y (engineAfterBlocks dir ys e) with
      blk := (engineAfterBlocks dir ys e).blk + 1 } = engineAfterBlocks dir (ys ++ [y]) e := by
  have hblk : BitVec.ofNat 32 ys.length + 1 = BitVec.ofNat 32 (ys.length + 1) := (BitVec.ofNat_add _ _).symm
  rw [engineAfterBlocks_blk, hblk]
  rcases List.eq_nil_or_concat ys with rfl | ⟨zs, z, rfl⟩ <;> simp [engineAfterBlocks, engineAtBlock, engineAfterBlock]

/-- Only the last chaining value stays in `PREV`. -/
theorem engineChained_engineAfterBlocks (dir : Direction) (ys : List Block) (p q : Block) (e : EngineRegs) :
    engineChained q (engineAfterBlocks dir ys (engineChained p e)) = engineAfterBlocks dir ys (engineChained q e) := by
  rcases List.eq_nil_or_concat ys with rfl | ⟨zs, z, rfl⟩ <;>
    simp [engineAfterBlocks, engineAtBlock, engineAfterBlock, engineChained]

/-- The block function of a buffer command (R145). -/
theorem blockIn_32 (k : Key) (x : Block) (dir : Direction) : blockIn k 32 x dir = blockFunction dir k x := by
  cases dir <;> rfl

/-- Its end of the sum schedule. -/
theorem sumIn_32 (dir : Direction) : sumIn 32 dir = sumAfterBlock dir := by
  cases dir <;> rfl

/-- R187: one iteration of the loop of a buffer command, up to its store. -/
theorem seqBlock_seqOutput {i : Instr} (hi : isBlockCommand i = false) (e : EngineRegs) (out : List Byte) (s : State) :
    seqBlock i (seqOutput e out s) = seqStore i (seqInput i (seqOutput e out s))
      (seqOutput (engineAfterBlock (sumAfterBlock (directionOf i)) 32
        (blockFunction (directionOf i) (keyOperand s)
          (if i = .cbcEnc then xor64 (seqInput i (seqOutput e out s)) e.prev else seqInput i (seqOutput e out s))) e) out s) := by
  have hr : seqRoundCount i (seqOutput e out s) = 32 := by
    cases i with
    | encBlk | decBlk => cases hi
    | ecbEnc | ecbDec | cbcEnc | cbcDec => rfl
  rw [seqBlock_eq, hr, sumIn_32, blockIn_32]
  rfl

/-- R187: one iteration of the loop of an ECB command emits the block function of its input block. -/
theorem seqBlock_ecb {i : Instr} (hi : i = .ecbEnc ∨ i = .ecbDec) {e : EngineRegs} {out : List Byte}
    (hout : 8 * e.blk.toNat = out.length) {s : State} {y : Block}
    (hy : y = blockFunction (directionOf i) (keyOperand s) (seqInputAt s (8 * e.blk.toNat))) :
    seqBlock i (seqOutput e out s) =
      seqOutput { engineAfterBlock (sumAfterBlock (directionOf i)) 32 y e with blk := e.blk + 1 } (out ++ bytes8 y) s := by
  rw [← seqEmit_seqOutput hout, hy]
  rcases hi with rfl | rfl
  all_goals
    rw [seqBlock_seqOutput rfl, seqStore]
    simp only [seqOutput_eng, engineAfterBlock_l, engineAfterBlock_r, join_leftHalf_rightHalf]
    rfl

/-- R166, R187: one iteration of the loop of `CBC_ENC` emits the next block of the chain and takes it into `PREV`. -/
theorem seqBlock_cbcEnc {e : EngineRegs} {out : List Byte} (hout : 8 * e.blk.toNat + 8 = out.length) {s : State} {y : Block}
    (hy : y = blockFunction .encrypt (keyOperand s) (xor64 (seqInputAt s (8 * e.blk.toNat)) e.prev)) :
    seqBlock .cbcEnc (seqOutput e out s) =
      seqOutput { engineAfterBlock (sumAfterBlock .encrypt) 32 y e with blk := e.blk + 1, prev := y } (out ++ bytes8 y) s := by
  rw [← seqEmit_seqOutput hout, hy, seqBlock_seqOutput rfl, seqStore]
  simp only [seqOutput_eng, engineAfterBlock_l, engineAfterBlock_r, join_leftHalf_rightHalf]
  rfl

/-- R166, R187: one iteration of the loop of `CBC_DEC` emits the next block of the chain and takes its input into `PREV`. -/
theorem seqBlock_cbcDec {e : EngineRegs} {out : List Byte} (hout : 8 * e.blk.toNat = out.length) {s : State} {x : Block}
    (hx : x = seqInputAt s (8 * (e.blk.toNat + 1))) :
    seqBlock .cbcDec (seqOutput e out s) =
      seqOutput { engineAfterBlock (sumAfterBlock .decrypt) 32 (blockFunction .decrypt (keyOperand s) x) e with
        blk := e.blk + 1, prev := x } (out ++ bytes8 (xor64 (blockFunction .decrypt (keyOperand s) x) e.prev)) s := by
  rw [← seqEmit_seqOutput hout, hx, seqBlock_seqOutput rfl, seqStore]
  simp only [seqOutput_eng, engineAfterBlock_l, engineAfterBlock_r, join_leftHalf_rightHalf]
  rfl

/-- The value of `BLK` before block `j` of a buffer. -/
theorem toNat_blk {j : Nat} {s : State} (hj : j ≤ s.len.toNat / 8 + 1) : (BitVec.ofNat 32 j).toNat = j := by
  have hlen := s.len.isLt
  rw [BitVec.toNat_ofNat]
  exact Nat.mod_eq_of_lt (by omega)

/-! ### ECB -/

/-- The output blocks of an ECB command after `j` blocks (R144). -/
def ecbOutputs (i : Instr) (s : State) (j : Nat) : List Block :=
  (seqInputs s j).map (blockFunction (directionOf i) (keyOperand s))

/-- The state of an ECB command after `j` blocks. -/
def ecbAfter (i : Instr) (s : State) (j : Nat) : State :=
  seqOutput (engineAfterBlocks (directionOf i) (ecbOutputs i s j) s.eng) (bytesOf (ecbOutputs i s j)) s

/-- There are `j` of them. -/
@[simp] theorem ecbOutputs_length (i : Instr) (s : State) (j : Nat) : (ecbOutputs i s j).length = j := by simp [ecbOutputs]

/-- One block more. -/
theorem ecbOutputs_succ (i : Instr) (s : State) (j : Nat) : ecbOutputs i s (j + 1) =
    ecbOutputs i s j ++ [blockFunction (directionOf i) (keyOperand s) (seqInputAt s (8 * j))] := by
  rw [ecbOutputs, seqInputs_succ, List.map_append]
  rfl

/-- R187: an ECB command takes one block on. -/
theorem seqBlock_ecbAfter {i : Instr} (hi : i = .ecbEnc ∨ i = .ecbDec) {s : State} {j : Nat} (hj : j < s.len.toNat / 8 + 1) :
    seqBlock i (ecbAfter i s j) = ecbAfter i s (j + 1) := by
  have hblk : (engineAfterBlocks (directionOf i) (ecbOutputs i s j) s.eng).blk.toNat = j := by
    rw [engineAfterBlocks_blk, ecbOutputs_length, toNat_blk (Nat.le_of_lt hj)]
  have hout : 8 * j = (bytesOf (ecbOutputs i s j)).length := by rw [bytesOf_length, ecbOutputs_length]
  rw [ecbAfter, ecbAfter, ecbOutputs_succ, seqBlock_ecb hi (hblk.symm ▸ hout) rfl, hblk, engineAfterBlocks_append,
    bytesOf_append, bytesOf_singleton]

/-- R146, R147, R187: the loop of an ECB command gives what its completion gives. -/
theorem seqCommand_ecb {i : Instr} (hi : i = .ecbEnc ∨ i = .ecbDec) (s : State) : seqCommand i s = complete (runOf i s) := by
  have hcount : seqBlockCount i s = s.len.toNat / 8 + 1 := by rcases hi with rfl | rfl <;> rfl
  have hbegin : seqBegin i s = ecbAfter i s 0 := by rcases hi with rfl | rfl <;> rfl
  have hloop : seqBlocks i (s.len.toNat / 8 + 1) (seqBegin i s) = ecbAfter i s (s.len.toNat / 8 + 1) :=
    seqBlocks_eq (ecbAfter i s) hbegin fun j hj => seqBlock_ecbAfter hi hj
  have hpad : s.len.toNat + (8 - s.len.toNat % 8) = 8 * (s.len.toNat / 8 + 1) := by omega
  have hin : blocksOf (padEcb (bytesOperand s)) = seqInputs s (s.len.toNat / 8 + 1) := by
    rw [padEcb, bytesOperand_length, blocksOf_bytesOperand_append_zeros hpad]
  have hout : ecbTransform (bytesOperand s) (keyOperand s) (directionOf i) =
      bytesOf (ecbOutputs i s (s.len.toNat / 8 + 1)) := by rw [ecbTransform, hin, ecbOutputs]
  have hrun : runOf i s = runEcb (directionOf i) s := by rcases hi with rfl | rfl <;> rfl
  rw [hrun, runEcb, hout, blocksOf_bytesOf,
    ← complete_seqOutput ((bytesOf_length _).trans (congrArg (8 * ·) (ecbOutputs_length i s _))), seqCommand, hcount, hloop]
  rcases hi with rfl | rfl <;> rfl

/-! ### The chaining value -/

/-- R166: a block more, with its ciphertext as the next chaining value. -/
theorem engineAfterBlocks_append_chained (dir : Direction) (ys : List Block) (y p q : Block) (e : EngineRegs) :
    { engineAfterBlock (sumAfterBlock dir) 32 y (engineAfterBlocks dir ys (engineChained p e)) with
      blk := (engineAfterBlocks dir ys (engineChained p e)).blk + 1, prev := q } =
      engineAfterBlocks dir (ys ++ [y]) (engineChained q e) := by
  rw [← engineChained_engineAfterBlocks dir _ p q, ← engineAfterBlocks_append]
  rfl

/-- R166: after `CBC_ENC` `PREV` is the last ciphertext block, or the IV. -/
theorem engineAfterCbcEnc_cons (iv : Block) (cs : List Block) (e : EngineRegs) :
    engineAfterCbcEnc (iv :: cs) e = engineAfterBlocks .encrypt cs (engineChained (cs.getLastD iv) e) := by
  rw [engineAfterCbcEnc, List.getLast?_cons, List.getLastD_eq_getLast?]
  rfl

/-- R166: so it is after `CBC_DEC`, of the blocks of its input. -/
theorem engineAfterCbcDec_cons (k : Key) (iv : Block) (cs : List Block) (e : EngineRegs) :
    engineAfterCbcDec k (iv :: cs) e =
      engineAfterBlocks .decrypt (cs.map (blockFunction .decrypt k)) (engineChained (cs.getLastD iv) e) := by
  rw [engineAfterCbcDec, List.getLast?_cons, List.getLastD_eq_getLast?]
  rfl

/-! ### CBC encryption -/

/-- R161: the encryption chain takes one block on from its last ciphertext block. -/
theorem cbcEncryptBlocks_append_singleton (k : Key) (prev p : Block) (ps : List Block) :
    cbcEncryptBlocks k prev (ps ++ [p]) = cbcEncryptBlocks k prev ps ++
      [encryptBlock (xor64 p ((cbcEncryptBlocks k prev ps).getLastD prev)) k 32] := by
  induction ps generalizing prev with
  | nil => rfl
  | cons q ps ih =>
    rw [List.cons_append, cbcEncryptBlocks_cons, ih, cbcEncryptBlocks_cons, List.getLastD_cons, List.cons_append]

/-- The ciphertext of `CBC_ENC` after `j` blocks. -/
def cbcEncOutputs (s : State) (j : Nat) : List Block := cbcEncryptBlocks (keyOperand s) (ivOperand s) (seqInputs s j)

/-- The state of `CBC_ENC` after `j` blocks. -/
def cbcEncAfter (s : State) (j : Nat) : State :=
  seqOutput
    (engineAfterBlocks .encrypt (cbcEncOutputs s j) (engineChained ((cbcEncOutputs s j).getLastD (ivOperand s)) s.eng))
    (bytesOf (ivOperand s :: cbcEncOutputs s j)) s

/-- There are `j` of them. -/
@[simp] theorem cbcEncOutputs_length (s : State) (j : Nat) : (cbcEncOutputs s j).length = j := by simp [cbcEncOutputs]

/-- R161, R187: `CBC_ENC` takes one block on. -/
theorem seqBlock_cbcEncAfter {s : State} {j : Nat} (hj : j < (s.len.toNat + 7) / 8) :
    seqBlock .cbcEnc (cbcEncAfter s j) = cbcEncAfter s (j + 1) := by
  have hsucc : cbcEncOutputs s (j + 1) = cbcEncOutputs s j ++ [blockFunction .encrypt (keyOperand s)
      (xor64 (seqInputAt s (8 * j)) ((cbcEncOutputs s j).getLastD (ivOperand s)))] := by
    rw [cbcEncOutputs, seqInputs_succ, cbcEncryptBlocks_append_singleton]
    rfl
  have hout : 8 * j + 8 = (bytesOf (ivOperand s :: cbcEncOutputs s j)).length := by
    rw [bytesOf_length, List.length_cons, cbcEncOutputs_length, Nat.mul_succ]
  unfold cbcEncAfter
  rw [hsucc, List.getLastD_concat]
  generalize (cbcEncOutputs s j).getLastD (ivOperand s) = prev
  have hblk : (engineAfterBlocks .encrypt (cbcEncOutputs s j) (engineChained prev s.eng)).blk.toNat = j := by
    rw [engineAfterBlocks_blk, cbcEncOutputs_length, toNat_blk (s := s) (by omega)]
  rw [seqBlock_cbcEnc (hblk.symm ▸ hout) rfl, hblk, engineAfterBlocks_prev, engineChained_prev,
    engineAfterBlocks_append_chained, ← List.cons_append, bytesOf_append, bytesOf_singleton]

/-- R163, R187: the loop of `CBC_ENC` gives what its completion gives. -/
theorem seqCommand_cbcEnc (s : State) : seqCommand .cbcEnc s = complete (runOf .cbcEnc s) := by
  have hloop : seqBlocks .cbcEnc ((s.len.toNat + 7) / 8) (seqBegin .cbcEnc s) = cbcEncAfter s ((s.len.toNat + 7) / 8) :=
    seqBlocks_eq (cbcEncAfter s) rfl fun j hj => seqBlock_cbcEncAfter hj
  have hpad : s.len.toNat + (8 - s.len.toNat % 8) % 8 = 8 * ((s.len.toNat + 7) / 8) := by omega
  have hin : blocksOf (padCbc (bytesOperand s)) = seqInputs s ((s.len.toNat + 7) / 8) := by
    rw [padCbc, bytesOperand_length, blocksOf_bytesOperand_append_zeros hpad]
  have hout : cbcEncrypt (bytesOperand s) (keyOperand s) (ivOperand s) =
      bytesOf (ivOperand s :: cbcEncOutputs s ((s.len.toNat + 7) / 8)) := by
    rw [cbcEncrypt_eq_bytesOf, hin, cbcEncOutputs]
  have hlen : (bytesOf (ivOperand s :: cbcEncOutputs s ((s.len.toNat + 7) / 8))).length = 8 * ((s.len.toNat + 7) / 8) + 8 := by
    rw [bytesOf_length, List.length_cons, cbcEncOutputs_length, Nat.mul_succ]
  rw [runOf, runCbcEnc, hout, blocksOf_bytesOf, engineAfterCbcEnc_cons, ← complete_seqOutput hlen, seqCommand, seqBlockCount,
    hloop]
  rfl

/-! ### CBC decryption -/

/-- The ciphertext blocks that `CBC_DEC` has read after `j` blocks: the IV block is skipped (R187). -/
def cbcDecInputs (s : State) (j : Nat) : List Block := (List.range j).map fun b => seqInputAt s (8 * (b + 1))

/-- The state of `CBC_DEC` after `j` blocks. -/
def cbcDecAfter (s : State) (j : Nat) : State :=
  seqOutput
    (engineAfterBlocks .decrypt ((cbcDecInputs s j).map (blockFunction .decrypt (keyOperand s)))
      (engineChained ((cbcDecInputs s j).getLastD (seqInputAt s 0)) s.eng))
    (bytesOf (cbcDecryptBlocks (keyOperand s) (seqInputAt s 0) (cbcDecInputs s j))) s

/-- There are `j` of them. -/
@[simp] theorem cbcDecInputs_length (s : State) (j : Nat) : (cbcDecInputs s j).length = j := by simp [cbcDecInputs]

/-- The input blocks are the IV block and the ciphertext blocks. -/
theorem seqInputs_eq_cons (s : State) (j : Nat) : seqInputs s (j + 1) = seqInputAt s 0 :: cbcDecInputs s j := by
  rw [seqInputs, List.range_succ_eq_map, List.map_cons, List.map_map]
  rfl

/-- R162, R187: `CBC_DEC` takes one block on. -/
theorem seqBlock_cbcDecAfter {s : State} {j : Nat} (hj : j < s.len.toNat / 8 - 1) :
    seqBlock .cbcDec (cbcDecAfter s j) = cbcDecAfter s (j + 1) := by
  have hsucc : cbcDecInputs s (j + 1) = cbcDecInputs s j ++ [seqInputAt s (8 * (j + 1))] := by
    rw [cbcDecInputs, List.range_succ, List.map_append]
    rfl
  have hout : 8 * j = (bytesOf (cbcDecryptBlocks (keyOperand s) (seqInputAt s 0) (cbcDecInputs s j))).length := by
    rw [bytesOf_length, cbcDecryptBlocks_length, cbcDecInputs_length]
  unfold cbcDecAfter
  rw [hsucc, List.map_append, List.map_singleton, cbcDecryptBlocks_append, List.getLastD_concat]
  generalize (cbcDecInputs s j).getLastD (seqInputAt s 0) = prev
  generalize hys : (cbcDecInputs s j).map (blockFunction .decrypt (keyOperand s)) = ys
  have hblk : (engineAfterBlocks .decrypt ys (engineChained prev s.eng)).blk.toNat = j := by
    rw [engineAfterBlocks_blk, ← hys, List.length_map, cbcDecInputs_length, toNat_blk (s := s) (by omega)]
  rw [seqBlock_cbcDec (hblk.symm ▸ hout) rfl, hblk, engineAfterBlocks_prev, engineChained_prev,
    engineAfterBlocks_append_chained, bytesOf_append]
  rfl

/-- R164, R187: the loop of `CBC_DEC` on whole blocks gives what its completion gives. -/
theorem seqCommand_cbcDec {s : State} (h8 : s.len.toNat % 8 = 0) : seqCommand .cbcDec s = complete (runOf .cbcDec s) := by
  have hlen := Nat.mul_div_cancel' (Nat.dvd_of_mod_eq_zero h8)
  have hdec := cbcDecrypt_of_whole (d := bytesOperand s) (by rwa [bytesOperand_length]) (keyOperand s)
  have hin : blocksOf (bytesOperand s) = seqInputs s (s.len.toNat / 8) := by
    rw [← blocksOf_bytesOperand_append_zeros (m := 0) hlen.symm]
    exact congrArg blocksOf (List.append_nil _).symm
  rw [runOf, runCbcDec, hdec, hin, seqCommand, seqBlockCount]
  cases hn : s.len.toNat / 8 with
  | zero =>
    have hbegin : seqBegin .cbcDec s = seqOutput (engineAtBlock 0 s.eng) [] s := if_neg (by omega)
    rw [hbegin]
    rfl
  | succ n =>
    have hbegin : seqBegin .cbcDec s = cbcDecAfter s 0 := if_pos (by omega)
    have hloop : seqBlocks .cbcDec n (seqBegin .cbcDec s) = cbcDecAfter s n :=
      seqBlocks_eq (cbcDecAfter s) hbegin fun j hj => seqBlock_cbcDecAfter (by omega)
    have hout : (bytesOf (cbcDecryptBlocks (keyOperand s) (seqInputAt s 0) (cbcDecInputs s n))).length = 8 * n := by
      rw [bytesOf_length, cbcDecryptBlocks_length, cbcDecInputs_length]
    rw [Nat.add_sub_cancel, hloop, seqInputs_eq_cons, engineAfterCbcDec_cons, cbcDecryptWhole_cons, ← complete_seqOutput hout]
    rfl

/-! ### The whole micro-sequence -/

/-- R204: an accepted `CBC_DEC` has whole blocks. -/
theorem len_mod_of_startError_cbcDec {s : State} (he : startError .cbcDec s = none) : s.len.toNat % 8 = 0 := by
  by_contra h8
  rw [startError_cbcDec_of_ragged (len_le_of_startError_none rfl he) h8] at he
  cases he

/-- R187: the micro-sequence of an accepted command gives what its completion gives. -/
theorem seqCommand_eq {i : Instr} {s : State} (he : startError i s = none) : seqCommand i s = complete (runOf i s) := by
  cases i with
  | encBlk => exact seqCommand_block rfl s
  | decBlk => exact seqCommand_block rfl s
  | ecbEnc => exact seqCommand_ecb (.inl rfl) s
  | ecbDec => exact seqCommand_ecb (.inr rfl) s
  | cbcEnc => exact seqCommand_cbcEnc s
  | cbcDec => exact seqCommand_cbcDec (len_mod_of_startError_cbcDec he)

/-- Settles O35: the completion answers the state of the pseudocode, and the loop over `BLK` gives the same, by what each of its
iterations leaves. -/
theorem microSequenceEqualsCompletion : Obligations.MicroSequenceEqualsCompletion := by
  intro i s hb he
  rw [exec_completes hb he, seqCommand_eq he]

end Sys2Proof.Machine
end

section
/-! SUPPORT. The host interface family: what an accepted START leaves, what the host's accesses do to an idle block and to a
running one, and that every accepted command completes, with the proofs of the statements of spec/43_host_interface.md from
them. -/

namespace Sys2Proof.Machine

/-! ### START -/

/-- R185: an accepted START answers `acceptStart`. -/
theorem exec_eq_acceptStart {i : Instr} {s : State} (hb : s.status.busy = false) (he : startError i s = none) :
    exec i s = .next (acceptStart i.opcode s) :=
  (exec_eq_command i s).trans (command_accepted hb he)

/-- Settles O20: an accepted START writes `STATUS` and `OP`, and the model's `due` and `draws`. -/
theorem acceptedStart : Obligations.AcceptedStart :=
  fun i s hb he => ⟨acceptStart i.opcode s, exec_eq_acceptStart hb he, rfl, rfl, rfl⟩

/-- Settles O24: no check of any command rejects a whole number of blocks in range. -/
theorem wholeBlocksInRangeStartEveryCommand : Obligations.WholeBlocksInRangeStartEveryCommand :=
  fun i s hb hlen h8 =>
    ⟨acceptStart i.opcode s, exec_eq_acceptStart hb (startError_of_len_le hlen fun _ => h8), rfl, rfl⟩

/-! ### The engine's turn and the write of `CMD` -/

/-- Settles O36: the step is the engine's turn, which runs the command in `OP`. -/
theorem engineStepRunsLatchedCommand : Obligations.EngineStepRunsLatchedCommand :=
  fun _ _ hm hop => (step_engine hm).trans (engineTurn_command hop)

/-- R182, R185: a write of a legal word to `CMD` while `BUSY = 0` is the START of its command. -/
theorem hostWrite_cmd {w : Word} {i : Instr} (hd : decode w = .command i) {s : State} (hb : s.status.busy = false) :
    hostWrite 0x00 w s = exec i s := by
  rcases hostWrite_cases 0x00 w s with ⟨ho, -⟩ | ⟨-, hb', -⟩ | ⟨-, -, j, hj, hx⟩ | ⟨-, -, ⟨why, hwhy⟩, -⟩ | ⟨ho, -⟩
  · cases ho
  · rw [hb] at hb'
    cases hb'
  · rw [hd] at hj
    cases hj
    exact hx
  · rw [hd] at hwhy
    cases hwhy
  · exact absurd rfl ho

/-- Settles O37: the access is well-formed, and the write it makes is the START. -/
theorem commandWriteRunsDecodedCommand : Obligations.CommandWriteRunsDecodedCommand := by
  intro s i w rest hb hh hd
  rw [step_access ⟨hh, .inl hb⟩ rfl]
  exact hostWrite_cmd (s := takeAccess rest s) hd hb

/-- Settles O38: the placed state is that of an accepted START with its completion due, so the engine moves. -/
theorem placedCommandRunsNext : Obligations.PlacedCommandRunsNext := by
  intro s i
  rw [State.withFetchWord, decodeTableWord_encode]
  exact engineStepRunsLatchedCommand _ i ⟨rfl, .inr (.inl rfl)⟩ (decodeOpcode_opcode i)

/-! ### Register writes -/

/-- R182: with `BUSY = 0` a step that writes a register other than `CMD` and `STATUS` is the store. -/
theorem step_wr_idle {s : State} {offset : Nat} {v : Word} {rest : List Access} (hb : s.status.busy = false)
    (hw : (Access.wr offset v).wellFormed s.params = true) (hs : regAt offset ≠ .status) (hc : regAt offset ≠ .cmd)
    (hh : s.host = .wr offset v :: rest) : step s = .next (storeReg (regAt offset) v (takeAccess rest s)) := by
  rw [step_access ⟨hh, .inl hb⟩ hw]
  exact hostWrite_idle hs hc v hb

/-- Settles O43: each of the ten offsets names its register. -/
theorem registerWritesStore : Obligations.RegisterWritesStore := by
  intro s v rest hb
  refine ⟨?_, ?_, ?_, ?_, ?_, ?_, ?_, ?_, ?_, ?_⟩ <;> exact step_wr_idle hb rfl nofun nofun

/-! ### Buffer bytes -/

/-- R183: with `BUSY = 0` a byte write of `IBUF` stores the byte. -/
theorem hostWriteByte_ibuf_idle (index : Nat) (b : Byte) {s : State} (hb : s.status.busy = false) :
    hostWriteByte .ibuf index b s = storeIbuf index b s := by
  rw [hostWriteByte, hb]
  rfl

/-- R183: with `BUSY = 0` a byte write of `OBUF` is discarded. -/
theorem hostWriteByte_obuf_idle (index : Nat) (b : Byte) {s : State} (hb : s.status.busy = false) :
    hostWriteByte .obuf index b s = s := by
  rw [hostWriteByte, hb]
  rfl

/-- R184: with `BUSY = 0` a byte read of `OBUF` returns the byte. -/
theorem hostReadByte_obuf_idle (index : Nat) {s : State} (hb : s.status.busy = false) :
    hostReadByte .obuf index s = reply (.byte .obuf index (readObuf s index)) s := by
  rw [hostReadByte, hb]
  rfl

/-- R184, U2: with `BUSY = 1` a byte read of `OBUF` returns a fresh free value. -/
theorem hostReadByte_obuf_busy (index : Nat) {s : State} (hb : s.status.busy = true) :
    hostReadByte .obuf index s = countDraw (reply (.byte .obuf index (Config.busyByte s.draws)) s) := by
  rw [hostReadByte, hb]
  rfl

/-- R181, U2: with `BUSY = 1` a read of an output register returns a fresh free value. -/
theorem hostRead_output_busy {offset : Nat} (ho : (regAt offset).isOutput = true) {s : State} (hb : s.status.busy = true) :
    hostRead offset s = countDraw (reply (.word offset (Config.busyWord s.draws)) s) := by
  rw [hostRead, hb, ho]
  rfl

/-- Settles O47: the step is the byte write, and a read of `IBUF` after the store finds the byte at its index only. -/
theorem bufferByteWrites : Obligations.BufferByteWrites := by
  intro s index b rest hb
  refine ⟨fun hi hh => ⟨storeIbuf index b (takeAccess rest s), ?_, ?_, fun a ha => ?_, rfl, rfl⟩, fun hi hh => ?_⟩
  · rw [step_access ⟨hh, .inl hb⟩ ((indexInSpace_eq_true _ _ _).mpr hi), makeAccess]
    exact congrArg Host.Outcome.next (hostWriteByte_ibuf_idle index b hb)
  · rw [readIbuf_storeIbuf, if_pos rfl]
  · rw [readIbuf_storeIbuf, if_neg ha]
    rfl
  · rw [step_access ⟨hh, .inl hb⟩ ((indexInSpace_eq_true _ _ _).mpr hi), makeAccess]
    exact congrArg Host.Outcome.next (hostWriteByte_obuf_idle index b hb)

/-- Settles O48: a byte read returns the byte of `IBUF`, and with `BUSY = 0` that of `OBUF`. -/
theorem bufferByteReads : Obligations.BufferByteReads := by
  refine fun s index rest => ⟨fun hi hm => ?_, fun hi hm hb => ?_⟩
  · exact step_access hm ((indexInSpace_eq_true _ _ _).mpr hi)
  · rw [step_access hm ((indexInSpace_eq_true _ _ _).mpr hi), makeAccess]
    exact congrArg Host.Outcome.next (hostReadByte_obuf_idle index (s := takeAccess rest s) hb)

/-- Settles O50: such a read draws its value. -/
theorem outputReadsWhileBusyAreFree : Obligations.OutputReadsWhileBusyAreFree := by
  refine fun s rest hb => ⟨fun offset ho hm => ?_, fun index hi hm => ?_⟩
  · have ⟨hw, hout⟩ : (Access.rd offset).wellFormed s.params = true ∧ (regAt offset).isOutput = true := by
      rcases ho with rfl | rfl | rfl <;> exact ⟨rfl, rfl⟩
    rw [step_access hm hw]
    exact congrArg Host.Outcome.next (hostRead_output_busy hout (s := takeAccess rest s) hb)
  · rw [step_access hm ((indexInSpace_eq_true _ _ _).mpr hi), makeAccess]
    exact congrArg Host.Outcome.next (hostReadByte_obuf_busy index (s := takeAccess rest s) hb)

/-! ### Every accepted command completes -/

/-- R181 to R184: while `BUSY = 1` an access other than reset is answered, `BUSY` stays, and neither the configuration, the
host's list nor the count of accesses before the completion moves. -/
theorem makeAccess_busy {a : Access} (ha : a ≠ .reset) {s : State} (hb : s.status.busy = true) :
    ∃ t, makeAccess a s = .next t ∧ t.status.busy = true ∧ t.params = s.params ∧ t.host = s.host ∧ t.due = s.due := by
  cases a with
  | rd offset =>
    obtain ⟨r, n, hr⟩ := hostRead_eq offset s
    exact ⟨_, congrArg Host.Outcome.next hr, hb, rfl, rfl, rfl⟩
  | wait =>
    obtain ⟨r, n, hr⟩ := hostRead_eq 0x04 s
    exact ⟨_, congrArg Host.Outcome.next hr, hb, rfl, rfl, rfl⟩
  | rdb space index =>
    obtain ⟨r, n, hr⟩ := hostReadByte_eq space index s
    exact ⟨_, congrArg Host.Outcome.next hr, hb, rfl, rfl, rfl⟩
  | wr offset v =>
    by_cases ho : offset = 0x04
    · subst ho
      exact ⟨_, hostWrite_status v s, hb, rfl, rfl, rfl⟩
    · exact ⟨_, hostWrite_busy ho v hb, hb, rfl, rfl, rfl⟩
  | wrb space index b =>
    exact ⟨_, congrArg Host.Outcome.next (hostWriteByte_busy space index b hb), hb, rfl, rfl, rfl⟩
  | reset => exact absurd rfl ha

/-- R186: from a running state of the invariant the engine's turn ends the run of the command. -/
theorem step_engine_completes {s : State} (hi : Inv s) (hm : EngineMoves s) :
    ∃ t, step s = .next t ∧ t.status.busy = false ∧ t.status.done = true ∧ runEnded t = true := by
  obtain ⟨-, hrun, -⟩ := hi
  obtain ⟨hb, -⟩ := id hm
  obtain ⟨i, hop, he⟩ := hrun hb
  refine ⟨complete (runOf i s), ?_, rfl, rfl, rfl⟩
  rw [step_engine hm, engineTurn_command hop, exec_completes hb he]

/-- A command runs, and the accesses the host has still to make are ones the architecture has, none of them the reset (R232). -/
def RunsWithoutReset (s : State) : Prop :=
  Inv s ∧ s.status.busy = true ∧ ∀ a ∈ s.host, a.wellFormed s.params = true ∧ a ≠ .reset

/-- R186, R243: one step of a running command ends its run, or is an access that leaves it running with one access fewer before
the completion. -/
theorem step_runsWithoutReset {s : State} (hs : RunsWithoutReset s) :
    (∃ t, step s = .next t ∧ t.status.busy = false ∧ t.status.done = true ∧ runEnded t = true) ∨
    ∃ t, step s = .next t ∧ RunsWithoutReset t ∧ t.due + 1 = s.due := by
  obtain ⟨hi, hb, hall⟩ := hs
  rcases step_cases s with ⟨hm, -⟩ | ⟨hb', -, -⟩ | ⟨a, rest, hm, -⟩
  · exact .inl (step_engine_completes hi hm)
  · rw [hb] at hb'
    cases hb'
  · obtain ⟨hh, hidle | ⟨hdue, -⟩⟩ := id hm
    · rw [hb] at hidle
      cases hidle
    · obtain ⟨hw, hr⟩ := hall a (hh ▸ List.mem_cons_self)
      obtain ⟨t, hx, hbt, hp, hht, hdt⟩ := makeAccess_busy hr (s := takeAccess rest s) hb
      have hstep := (step_access hm hw).trans hx
      refine .inr ⟨t, hstep, ⟨(everyStepKeepsTheInvariant s t hstep).2 hi, hbt, fun c hc => ?_⟩, ?_⟩
      · rw [hht] at hc
        rw [hp]
        exact hall c (hh ▸ List.mem_cons_of_mem a hc)
      · rw [hdt, takeAccess_due]
        omega

/-- Settles O60, by induction on the accesses that may still come before the completion. -/
theorem everyAcceptedCommandCompletes : Obligations.EveryAcceptedCommandCompletes := by
  intro s hi hb hall
  have hs : RunsWithoutReset s := ⟨hi, hb, hall⟩
  clear hi hb hall
  induction hd : s.due using Nat.strong_induction_on generalizing s with
  | _ d ih =>
    rcases step_runsWithoutReset hs with ⟨t, hstep, hend⟩ | ⟨u, hstep, hu, hdue⟩
    · exact ⟨1, t, Nat.le_add_left 1 d, run_succ hstep 0, hend⟩
    · obtain ⟨n, t, hn, hrun, hend⟩ := ih u.due (by omega) u hu rfl
      exact ⟨n + 1, t, by omega, (run_succ hstep n).trans hrun, hend⟩

end Sys2Proof.Machine
end

section
/-! SUPPORT. The exceptions family: which START is rejected and with which code, the illegal command word, and that no step from a
state of the invariant is a fault, with the proofs of the statements of spec/60_exceptions.md from them. -/

namespace Sys2Proof.Machine

/-! ### The errors of START -/

/-- Settles O21: a rejected START is `raiseError`, which on an idle block writes `STATUS` only. -/
theorem rejectedStart : Obligations.RejectedStart := fun _ _ _ => exec_rejected

/-- Settles O22: every buffer command checks the range first, and a block command checks nothing. -/
theorem lenRangeRejectsBufferCommands : Obligations.LenRangeRejectsBufferCommands :=
  fun _ _ hb hlen => ⟨fun hi => exec_rejected hb (startError_of_len_gt hi hlen), fun hi => exec_block_accepted hi hb⟩

/-- Settles O23: with `LEN` in range the check of `CBC_DEC` for a ragged `LEN` is the only one that can fail. -/
theorem raggedLenRejectsOnlyCbcDec : Obligations.RaggedLenRejectsOnlyCbcDec := by
  refine fun i s hb hlen => ⟨?_, fun h => exec_accepted hb (startError_of_len_le hlen h.neg_resolve_left)⟩
  rintro ⟨rfl, h8⟩
  exact exec_rejected hb (startError_cbcDec_of_ragged hlen h8)

/-! ### The illegal command word -/

/-- R206: on an idle block an error leaves `ERR` and its code. -/
theorem statusRaised_of_idle (e : ErrorCode) {t : Status} (hb : t.busy = false) :
    statusRaised e t = rejectedStatus t (errorNumber e) := by
  rw [statusRaised, statusCleared, hb, rejectedStatus]

/-- R93: the words of 6 and more select no command. -/
theorem decode_illegal_of_ge {w : Word} (h : 6 ≤ w.toNat) : ∃ why, decode w = .illegal why := by
  rcases Nat.lt_or_ge w.toNat 8 with h8 | h8
  · exact ⟨.reservedMode, (decode_eq_reservedMode_iff w).mpr (by omega)⟩
  · exact ⟨.reservedBits, decode_of_ge h8⟩

/-- R202: a write of an illegal word to `CMD` while `BUSY = 0` raises `BAD_OP`. -/
theorem hostWrite_cmd_illegal {w : Word} {why : IllegalWord} (hd : decode w = .illegal why) {s : State}
    (hb : s.status.busy = false) : hostWrite 0x00 w s = .next (raiseError .badOp s) := by
  rcases hostWrite_cases 0x00 w s with ⟨ho, -⟩ | ⟨-, hb', -⟩ | ⟨-, -, i, hi, -⟩ | ⟨-, -, -, hx⟩ | ⟨ho, -⟩
  · cases ho
  · rw [hb] at hb'
    cases hb'
  · rw [hd] at hi
    cases hi
  · exact hx
  · exact absurd rfl ho

/-- Settles O25: the step is the write of `CMD`, which raises `BAD_OP` once the access is taken. -/
theorem illegalWordRaisesBadOp : Obligations.IllegalWordRaisesBadOp := by
  intro s w rest hb hh hw
  obtain ⟨why, hd⟩ := decode_illegal_of_ge hw
  refine ⟨raiseError .badOp (takeAccess rest s), ?_, statusRaised_of_idle .badOp hb, rfl, rfl⟩
  rw [step_access ⟨hh, .inl hb⟩ rfl]
  exact hostWrite_cmd_illegal hd hb

/-! ### Idle steps and faults -/

/-- Settles O39: neither the engine nor the host has a move. -/
theorem idleHoldsItsState : Obligations.IdleHoldsItsState := by
  intro s hb hh
  rcases step_cases s with ⟨⟨hb', -⟩, -⟩ | ⟨-, -, hs⟩ | ⟨a, rest, ⟨hh', -⟩, -⟩
  · rw [hb] at hb'
    cases hb'
  · exact hs
  · rw [hh] at hh'
    cases hh'

/-- A START is never a fault: only a completion can be (log 12). -/
theorem exec_idle_not_fault (i : Instr) {s : State} (hb : s.status.busy = false) (f : Fault) : exec i s ≠ .fault f := by
  cases he : startError i s with
  | none => rw [exec_eq_acceptStart hb he]; nofun
  | some e => rw [exec_rejected hb he]; nofun

/-- A register write is never a fault: it runs a command only with `BUSY = 0`, as a START. -/
theorem hostWrite_not_fault (offset : Nat) (v : Word) (s : State) (f : Fault) : hostWrite offset v s ≠ .fault f := by
  rcases hostWrite_cases offset v s with ⟨-, hx⟩ | ⟨-, -, hx⟩ | ⟨-, hb, i, -, hx⟩ | ⟨-, -, -, hx⟩ | ⟨-, -, hx⟩ <;> rw [hx]
  case inr.inr.inl => exact exec_idle_not_fault i hb f
  all_goals nofun

/-- No access of the host is a fault. -/
theorem makeAccess_not_fault (a : Access) (s : State) (f : Fault) : makeAccess a s ≠ .fault f := by
  cases a with
  | wr offset v => exact hostWrite_not_fault offset v s f
  | rd | rdb | wrb | wait | reset => nofun

/-- The host's turn is no fault: its access is made or refused. -/
theorem hostTurn_not_fault (a : Access) (s : State) (f : Fault) : hostTurn a s ≠ .fault f := by
  cases hw : a.wellFormed s.params with
  | true =>
    rw [hostTurn_wellFormed hw]
    exact makeAccess_not_fault a s f
  | false =>
    obtain ⟨why, hr⟩ := hostTurn_not_wellFormed hw
    rw [hr]
    nofun

/-- Settles O55: in the engine's turn the invariant makes the step a completion, and no other step can be a fault. -/
theorem invariantStatesNeverFault : Obligations.InvariantStatesNeverFault := by
  intro s f hi
  rcases step_cases s with ⟨hm, -⟩ | ⟨-, -, hs⟩ | ⟨a, rest, -, hs⟩
  · obtain ⟨t, hs, -⟩ := step_engine_completes hi hm
    rw [hs]
    nofun
  · rw [hs]
    nofun
  · rw [hs]
    exact hostTurn_not_fault a _ f

end Sys2Proof.Machine
end
